-- ==== Sys2Proof/Word.lean ====
section
/-! DEFINITION. The machine word (00_scope.md R6, R7, R8). -/

namespace Sys2Proof

/-- A 16-bit word: every register, memory word, instruction word, address and pc value (R6, R8). Bit 0 is the least
significant bit (R7), and `+`, `&&&`, `~~~` of `BitVec` are the `+16`, `&` and `~` of R9. -/
abbrev Word := BitVec 16

end Sys2Proof
end

