-- ==== Sys2Proof/Syntax.lean ====
section
/-! DEFINITION. The instructions: one constructor for each row of the opcode map (30_encoding.md R73), with the operands
of R54. Bits a format marks `x` are not operands: they "do not change what the instruction does" (R67). -/

namespace Sys2Proof

/-- A register index, always in 0..7 (10_state.md R14). A base field is a `BitVec 3` instead: it is a number and never
selects a register (30_encoding.md R66, 41_control.md R95), and the two types cannot be confused. -/
abbrev RegIx := Fin 8

/-- One instruction. Literals and offsets keep their field's width; every use zero-extends them (30_encoding.md R65). -/
inductive Instr where
  /-- BR (R55, R91): the enable bits on Negative, Zero, Positive and the offset. -/
  | br (n z p : Bool) (offset9 : BitVec 9)
  /-- ADD, register form (R56, R97). -/
  | addReg (dr sr1 sr2 : RegIx)
  /-- ADD, immediate form (R57, R98). -/
  | addImm (dr sr1 : RegIx) (imm5 : BitVec 5)
  /-- LD (R59, R103). -/
  | ld (dr : RegIx) (offset9 : BitVec 9)
  /-- ST (R59, R104); `sr` is the source register of bits 11–9. -/
  | st (sr : RegIx) (offset9 : BitVec 9)
  /-- JSRR (R61, R93): JUMP-TO-SUBROUTINE with the mode flag clear. -/
  | jsrr (base : BitVec 3)
  /-- JSR (R60, R92): JUMP-TO-SUBROUTINE with the mode flag set. -/
  | jsr (offset11 : BitVec 11)
  /-- AND, register form (R56, R99). -/
  | andReg (dr sr1 sr2 : RegIx)
  /-- AND, immediate form (R57, R100). -/
  | andImm (dr sr1 : RegIx) (imm5 : BitVec 5)
  /-- LDR (R62, R105). -/
  | ldr (dr : RegIx) (base : BitVec 3) (offset6 : BitVec 6)
  /-- STR (R62, R106). -/
  | str (sr : RegIx) (base : BitVec 3) (offset6 : BitVec 6)
  /-- LOOKUP, reserved opcode 8 (R64, R110); the payload is what the extension hook reports. -/
  | lookup (payload : BitVec 12)
  /-- NOT (R58, R101). -/
  | not (dr sr1 : RegIx)
  /-- LDI (R59, R107). -/
  | ldi (dr : RegIx) (offset9 : BitVec 9)
  /-- STI (R59, R108). -/
  | sti (sr : RegIx) (offset9 : BitVec 9)
  /-- JMP (R63, R94). -/
  | jmp (base : BitVec 3)
  /-- BSET, reserved opcode 13 (R64, R111). -/
  | bset (payload : BitVec 12)
  /-- LEA (R59, R109). -/
  | lea (dr : RegIx) (offset9 : BitVec 9)
  /-- SENDACC, reserved opcode 15 (R64, R112). -/
  | sendacc (payload : BitVec 12)
  deriving DecidableEq, Repr

end Sys2Proof
end

