-- ==== Sys2Proof/WellFormed.lean ====
section
/-! DEFINITION. What is well formed.

Every term of `Instr` is well formed by its type: register indices are in 0..7 and each literal has its field's width,
"kept by construction, not by checks" (10_state.md R32). What can be ill formed is an instruction as it is WRITTEN, with
plain numbers for its operands: the notation of 30_encoding.md R71 and R72. `Line` is that notation without its
spelling, and `Line.wellFormed` checks each number against the range R54 gives its field. `Line.assemble`, which gives a
well-formed line its word and refuses an ill-formed one, stands in Decode.lean after the encoder. -/

namespace Sys2Proof

/-- One line of the spec's assembler notation (R71), its numbers not yet checked. -/
inductive Line where
  /-- `BR cc, #off9` -/
  | br (n z p : Bool) (off9 : Nat)
  /-- `ADD Rd, Rs1, Rs2` -/
  | add (rd rs1 rs2 : Nat)
  /-- `ADD Rd, Rs1, #imm5` -/
  | addLit (rd rs1 imm5 : Nat)
  /-- `AND Rd, Rs1, Rs2` -/
  | and (rd rs1 rs2 : Nat)
  /-- `AND Rd, Rs1, #imm5` -/
  | andLit (rd rs1 imm5 : Nat)
  /-- `NOT Rd, Rs` -/
  | not (rd rs : Nat)
  /-- `LD Rd, #off9` -/
  | ld (rd off9 : Nat)
  /-- `ST Rs, #off9` -/
  | st (rs off9 : Nat)
  /-- `LDI Rd, #off9` -/
  | ldi (rd off9 : Nat)
  /-- `STI Rs, #off9` -/
  | sti (rs off9 : Nat)
  /-- `LEA Rd, #off9` -/
  | lea (rd off9 : Nat)
  /-- `LDR Rd, @base, #off6` -/
  | ldr (rd base off6 : Nat)
  /-- `STR Rs, @base, #off6` -/
  | str (rs base off6 : Nat)
  /-- `JSR #off11` -/
  | jsr (off11 : Nat)
  /-- `JSRR @base` -/
  | jsrr (base : Nat)
  /-- `JMP @base` -/
  | jmp (base : Nat)
  /-- `LOOKUP #payload12` (`#0` when omitted) -/
  | lookup (payload : Nat := 0)
  /-- `BSET #payload12` (`#0` when omitted) -/
  | bset (payload : Nat := 0)
  /-- `SENDACC #payload12` (`#0` when omitted) -/
  | sendacc (payload : Nat := 0)
  /-- `NOP` (R72) -/
  | nop
  /-- `.FILL #v` (R72) -/
  | fill (v : Nat)
  deriving DecidableEq, Repr

/-- A register number `R0` to `R7` (R71, R14). -/
def isReg (n : Nat) : Bool := n < 8

/-- A number that fits a field of `width` bits (R54). -/
def fitsField (width n : Nat) : Bool := n < 2 ^ width

/-- Every number of the line is in the range its field gives it (R54, R71, R72). -/
def Line.wellFormed : Line → Bool
  | .br _ _ _ off9 => fitsField 9 off9
  | .add rd rs1 rs2 => isReg rd && isReg rs1 && isReg rs2
  | .addLit rd rs1 imm5 => isReg rd && isReg rs1 && fitsField 5 imm5
  | .and rd rs1 rs2 => isReg rd && isReg rs1 && isReg rs2
  | .andLit rd rs1 imm5 => isReg rd && isReg rs1 && fitsField 5 imm5
  | .not rd rs => isReg rd && isReg rs
  | .ld rd off9 => isReg rd && fitsField 9 off9
  | .st rs off9 => isReg rs && fitsField 9 off9
  | .ldi rd off9 => isReg rd && fitsField 9 off9
  | .sti rs off9 => isReg rs && fitsField 9 off9
  | .lea rd off9 => isReg rd && fitsField 9 off9
  | .ldr rd base off6 => isReg rd && fitsField 3 base && fitsField 6 off6
  | .str rs base off6 => isReg rs && fitsField 3 base && fitsField 6 off6
  | .jsr off11 => fitsField 11 off11
  | .jsrr base => fitsField 3 base
  | .jmp base => fitsField 3 base
  | .lookup payload => fitsField 12 payload
  | .bset payload => fitsField 12 payload
  | .sendacc payload => fitsField 12 payload
  | .nop => true
  | .fill v => fitsField 16 v

end Sys2Proof
end

