-- ==== Sys2Proof/Decode.lean ====
section
/-! DEFINITION. The decoder (30_encoding.md R52 to R70), total on every word, and after it the encoder, the opcode map of
R73 and the assembler of the notation R71. The decoder has no rejection: "no encoding is illegal or traps" (R67). -/

namespace Sys2Proof

/-! ### The opcode (R53) -/

/-- The sixteen opcodes by the source's names (R53). -/
inductive Opcode where
  | branch | add | load | store | jumpToSubroutine | and | loadRegister | storeRegister
  | lookup | not | loadIndirect | storeIndirect | jump | broadcastSet | loadEffectiveAddress | sendAccept
  deriving DecidableEq, Repr

/-- The opcode of bits 15, 14, 13, 12 (R53). -/
def opcodeOfBits : Bool → Bool → Bool → Bool → Opcode
  | false, false, false, false => .branch
  | false, false, false, true  => .add
  | false, false, true,  false => .load
  | false, false, true,  true  => .store
  | false, true,  false, false => .jumpToSubroutine
  | false, true,  false, true  => .and
  | false, true,  true,  false => .loadRegister
  | false, true,  true,  true  => .storeRegister
  | true,  false, false, false => .lookup
  | true,  false, false, true  => .not
  | true,  false, true,  false => .loadIndirect
  | true,  false, true,  true  => .storeIndirect
  | true,  true,  false, false => .jump
  | true,  true,  false, true  => .broadcastSet
  | true,  true,  true,  false => .loadEffectiveAddress
  | true,  true,  true,  true  => .sendAccept

/-- `op = instr[15:12]` (R53). -/
def opcodeOf (w : Word) : Opcode := opcodeOfBits w[15] w[14] w[13] w[12]

/-! ### The fields (R54) -/

/-- `dr`, bits 11–9: the destination register; the source register of ST, STR and STI. -/
def fieldDr (w : Word) : RegIx := (w.extractLsb' 9 3).toFin
/-- `sr1`, bits 8–6. -/
def fieldSr1 (w : Word) : RegIx := (w.extractLsb' 6 3).toFin
/-- `sr2`, bits 2–0. -/
def fieldSr2 (w : Word) : RegIx := (w.extractLsb' 0 3).toFin
/-- `base`, bits 8–6, a number. -/
def fieldBase (w : Word) : BitVec 3 := w.extractLsb' 6 3
/-- `imm`, bit 5. -/
def fieldImm (w : Word) : Bool := w[5]
/-- `imm5`, bits 4–0. -/
def fieldImm5 (w : Word) : BitVec 5 := w.extractLsb' 0 5
/-- `offset6`, bits 5–0. -/
def fieldOffset6 (w : Word) : BitVec 6 := w.extractLsb' 0 6
/-- `offset9`, bits 8–0. -/
def fieldOffset9 (w : Word) : BitVec 9 := w.extractLsb' 0 9
/-- `offset11`, bits 10–0. -/
def fieldOffset11 (w : Word) : BitVec 11 := w.extractLsb' 0 11
/-- `jmode`, bit 11. -/
def fieldJmode (w : Word) : Bool := w[11]
/-- The 12 low bits of a reserved opcode (R64). -/
def fieldPayload (w : Word) : BitVec 12 := w.extractLsb' 0 12

/-! ### The decoder -/

/-- The instruction a word stands for: the opcode of R53, the formats R55 to R64, `imm` and `jmode` choosing between two
formats of one opcode (R70). Ignored bits are not read (R67). -/
def decode (w : Word) : Instr :=
  match opcodeOf w with
  | .branch => .br w[11] w[10] w[9] (fieldOffset9 w)
  | .add =>
    if fieldImm w then .addImm (fieldDr w) (fieldSr1 w) (fieldImm5 w)
    else .addReg (fieldDr w) (fieldSr1 w) (fieldSr2 w)
  | .load => .ld (fieldDr w) (fieldOffset9 w)
  | .store => .st (fieldDr w) (fieldOffset9 w)
  | .jumpToSubroutine => if fieldJmode w then .jsr (fieldOffset11 w) else .jsrr (fieldBase w)
  | .and =>
    if fieldImm w then .andImm (fieldDr w) (fieldSr1 w) (fieldImm5 w)
    else .andReg (fieldDr w) (fieldSr1 w) (fieldSr2 w)
  | .loadRegister => .ldr (fieldDr w) (fieldBase w) (fieldOffset6 w)
  | .storeRegister => .str (fieldDr w) (fieldBase w) (fieldOffset6 w)
  | .lookup => .lookup (fieldPayload w)
  | .not => .not (fieldDr w) (fieldSr1 w)
  | .loadIndirect => .ldi (fieldDr w) (fieldOffset9 w)
  | .storeIndirect => .sti (fieldDr w) (fieldOffset9 w)
  | .jump => .jmp (fieldBase w)
  | .broadcastSet => .bset (fieldPayload w)
  | .loadEffectiveAddress => .lea (fieldDr w) (fieldOffset9 w)
  | .sendAccept => .sendacc (fieldPayload w)

/-- The instruction read from the low `nbits` bits of `w`, numbered as the opcode table numbers them. Every instruction
is one 16-bit word (R52), its bit k being bit k of `w`; bits at or above `nbits` are 0. Nothing is refused (R67). -/
def decodeTableWord (nbits w : Nat) : Option Instr := some (decode (BitVec.ofNat 16 (w % 2 ^ nbits)))

/-! ### The encoder -/

/-- A register index as a 3-bit field. -/
def regBits (r : RegIx) : BitVec 3 := BitVec.ofFin (w := 3) r

/-- A field's value with its least significant bit at bit `lo` of the word, 0 elsewhere. -/
def place {n : Nat} (lo : Nat) (v : BitVec n) : Word := v.setWidth 16 <<< lo

/-- The word of an instruction: each field of R55 to R64 at its place of R54, ignored bits 0 (R71). -/
def encode : Instr → Word
  | .br n z p off9 =>
    place 12 0b0000#4 ||| place 11 (BitVec.ofBool n) ||| place 10 (BitVec.ofBool z) ||| place 9 (BitVec.ofBool p) |||
      place 0 off9
  | .addReg dr sr1 sr2 =>
    place 12 0b0001#4 ||| place 9 (regBits dr) ||| place 6 (regBits sr1) ||| place 5 0b0#1 ||| place 0 (regBits sr2)
  | .addImm dr sr1 imm5 =>
    place 12 0b0001#4 ||| place 9 (regBits dr) ||| place 6 (regBits sr1) ||| place 5 0b1#1 ||| place 0 imm5
  | .ld dr off9 => place 12 0b0010#4 ||| place 9 (regBits dr) ||| place 0 off9
  | .st sr off9 => place 12 0b0011#4 ||| place 9 (regBits sr) ||| place 0 off9
  | .jsrr base => place 12 0b0100#4 ||| place 11 0b0#1 ||| place 6 base
  | .jsr off11 => place 12 0b0100#4 ||| place 11 0b1#1 ||| place 0 off11
  | .andReg dr sr1 sr2 =>
    place 12 0b0101#4 ||| place 9 (regBits dr) ||| place 6 (regBits sr1) ||| place 5 0b0#1 ||| place 0 (regBits sr2)
  | .andImm dr sr1 imm5 =>
    place 12 0b0101#4 ||| place 9 (regBits dr) ||| place 6 (regBits sr1) ||| place 5 0b1#1 ||| place 0 imm5
  | .ldr dr base off6 => place 12 0b0110#4 ||| place 9 (regBits dr) ||| place 6 base ||| place 0 off6
  | .str sr base off6 => place 12 0b0111#4 ||| place 9 (regBits sr) ||| place 6 base ||| place 0 off6
  | .lookup payload => place 12 0b1000#4 ||| place 0 payload
  | .not dr sr1 => place 12 0b1001#4 ||| place 9 (regBits dr) ||| place 6 (regBits sr1)
  | .ldi dr off9 => place 12 0b1010#4 ||| place 9 (regBits dr) ||| place 0 off9
  | .sti sr off9 => place 12 0b1011#4 ||| place 9 (regBits sr) ||| place 0 off9
  | .jmp base => place 12 0b1100#4 ||| place 6 base
  | .bset payload => place 12 0b1101#4 ||| place 0 payload
  | .lea dr off9 => place 12 0b1110#4 ||| place 9 (regBits dr) ||| place 0 off9
  | .sendacc payload => place 12 0b1111#4 ||| place 0 payload

/-! ### The opcode map (R73) -/

/-- One row of the opcode map: `w` is an instruction of the row when `w & mask = pattern` (R73). -/
structure MapRow where
  mnemonic : String
  pattern : Word
  mask : Word
  deriving DecidableEq, Repr

/-- The row of the opcode map an instruction belongs to (R73). -/
def mapRow : Instr → MapRow
  | .br _ _ _ _ => ⟨"BR", 0x0000, 0xF000⟩
  | .addReg _ _ _ => ⟨"ADD", 0x1000, 0xF020⟩
  | .addImm _ _ _ => ⟨"ADD", 0x1020, 0xF020⟩
  | .ld _ _ => ⟨"LD", 0x2000, 0xF000⟩
  | .st _ _ => ⟨"ST", 0x3000, 0xF000⟩
  | .jsrr _ => ⟨"JSRR", 0x4000, 0xF800⟩
  | .jsr _ => ⟨"JSR", 0x4800, 0xF800⟩
  | .andReg _ _ _ => ⟨"AND", 0x5000, 0xF020⟩
  | .andImm _ _ _ => ⟨"AND", 0x5020, 0xF020⟩
  | .ldr _ _ _ => ⟨"LDR", 0x6000, 0xF000⟩
  | .str _ _ _ => ⟨"STR", 0x7000, 0xF000⟩
  | .lookup _ => ⟨"LOOKUP", 0x8000, 0xF000⟩
  | .not _ _ => ⟨"NOT", 0x9000, 0xF000⟩
  | .ldi _ _ => ⟨"LDI", 0xA000, 0xF000⟩
  | .sti _ _ => ⟨"STI", 0xB000, 0xF000⟩
  | .jmp _ => ⟨"JMP", 0xC000, 0xF000⟩
  | .bset _ => ⟨"BSET", 0xD000, 0xF000⟩
  | .lea _ _ => ⟨"LEA", 0xE000, 0xF000⟩
  | .sendacc _ => ⟨"SENDACC", 0xF000, 0xF000⟩

/-- The 19 rows of the opcode map in the order R73 lists them: the row of one instruction of each format. -/
def opcodeMap : List MapRow :=
  [.br false false false 0, .addReg 0 0 0, .addImm 0 0 0, .ld 0 0, .st 0 0, .jsrr 0, .jsr 0, .andReg 0 0 0,
   .andImm 0 0 0, .ldr 0 0 0, .str 0 0 0, .lookup 0, .not 0 0, .ldi 0 0, .sti 0 0, .jmp 0, .bset 0, .lea 0 0,
   .sendacc 0].map mapRow

/-- The bits of a word its format uses: all but those marked `x` in R55 to R64. A reserved opcode's payload counts as
used, since the extension hook reports it (R88). -/
def usedBits : Instr → Word
  | .addReg _ _ _ => 0xFFE7
  | .andReg _ _ _ => 0xFFE7
  | .not _ _ => 0xFFC0
  | .jsrr _ => 0xF9C0
  | .jmp _ => 0xF1C0
  | .br _ _ _ _ => 0xFFFF
  | .addImm _ _ _ => 0xFFFF
  | .ld _ _ => 0xFFFF
  | .st _ _ => 0xFFFF
  | .jsr _ => 0xFFFF
  | .andImm _ _ _ => 0xFFFF
  | .ldr _ _ _ => 0xFFFF
  | .str _ _ _ => 0xFFFF
  | .lookup _ => 0xFFFF
  | .ldi _ _ => 0xFFFF
  | .sti _ _ => 0xFFFF
  | .bset _ => 0xFFFF
  | .lea _ _ => 0xFFFF
  | .sendacc _ => 0xFFFF

/-! ### The assembler of the notation (R71, R72) -/

/-- The word of a line whose numbers fit their fields (R71, R72). -/
def Line.word : Line → Word
  | .br n z p off9 => encode (.br n z p (BitVec.ofNat 9 off9))
  | .add rd rs1 rs2 => encode (.addReg (Fin.ofNat 8 rd) (Fin.ofNat 8 rs1) (Fin.ofNat 8 rs2))
  | .addLit rd rs1 imm5 => encode (.addImm (Fin.ofNat 8 rd) (Fin.ofNat 8 rs1) (BitVec.ofNat 5 imm5))
  | .and rd rs1 rs2 => encode (.andReg (Fin.ofNat 8 rd) (Fin.ofNat 8 rs1) (Fin.ofNat 8 rs2))
  | .andLit rd rs1 imm5 => encode (.andImm (Fin.ofNat 8 rd) (Fin.ofNat 8 rs1) (BitVec.ofNat 5 imm5))
  | .not rd rs => encode (.not (Fin.ofNat 8 rd) (Fin.ofNat 8 rs))
  | .ld rd off9 => encode (.ld (Fin.ofNat 8 rd) (BitVec.ofNat 9 off9))
  | .st rs off9 => encode (.st (Fin.ofNat 8 rs) (BitVec.ofNat 9 off9))
  | .ldi rd off9 => encode (.ldi (Fin.ofNat 8 rd) (BitVec.ofNat 9 off9))
  | .sti rs off9 => encode (.sti (Fin.ofNat 8 rs) (BitVec.ofNat 9 off9))
  | .lea rd off9 => encode (.lea (Fin.ofNat 8 rd) (BitVec.ofNat 9 off9))
  | .ldr rd base off6 => encode (.ldr (Fin.ofNat 8 rd) (BitVec.ofNat 3 base) (BitVec.ofNat 6 off6))
  | .str rs base off6 => encode (.str (Fin.ofNat 8 rs) (BitVec.ofNat 3 base) (BitVec.ofNat 6 off6))
  | .jsr off11 => encode (.jsr (BitVec.ofNat 11 off11))
  | .jsrr base => encode (.jsrr (BitVec.ofNat 3 base))
  | .jmp base => encode (.jmp (BitVec.ofNat 3 base))
  | .lookup payload => encode (.lookup (BitVec.ofNat 12 payload))
  | .bset payload => encode (.bset (BitVec.ofNat 12 payload))
  | .sendacc payload => encode (.sendacc (BitVec.ofNat 12 payload))
  | .nop => 0x0000
  | .fill v => BitVec.ofNat 16 v

/-- The word a line assembles to; none for a line with a number outside its field. -/
def Line.assemble (l : Line) : Option Word := if l.wellFormed then some l.word else none

end Sys2Proof
end

