-- ==== Sys2Proof/Config.lean ====
section
/-! DEFINITION. The parameters of the hardware that are not already widths of the model's types (00_scope.md R6).

The other parameters of R6 are types: WORD_WIDTH 16 is `Word` (Word.lean), OPCODE_WIDTH 4 is the four bits `opcodeOf`
reads (Decode.lean), REG_INDEX_WIDTH 3 and REG_COUNT 8 are `RegIx` (Syntax.lean), FETCH_ADDR_WIDTH 16 is the type of
`Edge.req` (Machine/State.lean). `LATENCY`, `RF_READ_PORTS`, `RF_WRITE_PORTS` and `MEM_PORTS` are parameters on which
no rule depends (R6, R133) and are not held. There is no free value: the spec leaves none (R90, R127). -/

namespace Sys2Proof.Config

/-- `MEMORY_SIZE`: the number of 16-bit words of memory (R6, R27). -/
def memorySize : Nat := 128

@[simp] theorem memorySize_eq : memorySize = 128 := rfl

/-- `LINK_REG`: the register written by JUMP-TO-SUBROUTINE (R6, R15). -/
def linkReg : Fin 8 := 7

/-- The fetch address at which `State.withFetchWord` places a word: the one the spec's own vectors use
(95_test_vectors.md, section 0). DESIGN CHOICE, log entry 3: no rule of the hardware names it. -/
def probeAddress : BitVec 16 := 100

end Sys2Proof.Config
end

