-- ==== Sys2Proof/Machine/State.lean ====
section
/-! DEFINITION. The state: the four pieces R13 gives the block (`pc`, `flag`, `x`, `mem`), and the two pieces through which
a deterministic step meets the host: what the output strobes show (`out`) and what the host does next (`inputs`). -/

namespace Sys2Proof.Machine

/-- The condition flag: exactly one of Negative, Zero, Positive (10_state.md R24). -/
inductive CondFlag where
  | N | Z | P
  deriving DecidableEq, Repr

/-- The memory `M`: 128 words of 16 bits, indexed 0..127, the word being the smallest addressable unit (R27, R39). A list of
(index, word) pairs with the words equal to `Memory.unlisted` left out; `Memory.wf` (Machine/Ops.lean) is its one
canonical form (log entry 2). -/
abbrev Memory := List (Nat × Word)

/-- What the extension hook shows with `ext_valid` = 1 (40_engine.md R75, R88): `ext_op` and `ext_word`. -/
structure HookPulse where
  op : BitVec 4
  word : Word
  deriving DecidableEq, Repr

/-- The one-edge output pulses at the end of a step (R75). No instruction and no later step reads them (R30, R88). -/
structure Outputs where
  /-- `rsp_done`: the step completed a transaction. -/
  rspDone : Bool
  /-- `ext_valid` with `ext_op` and `ext_word`; none is `ext_valid` = 0, when the other two mean nothing (R75). -/
  hook : Option HookPulse
  deriving DecidableEq, Repr

/-- No pulse. -/
def Outputs.quiet : Outputs := ⟨false, none⟩

/-- A host memory access, `host_en` = 1 (R76). -/
inductive HostAccess where
  /-- `host_we` = 1: write `value` at `addr`. -/
  | load (addr value : Word)
  /-- `host_we` = 0: show the word at `addr` on `host_rdata`. -/
  | read (addr : Word)
  deriving DecidableEq, Repr

/-- What the host presents at one clock edge at which the block is idle (R75, R76): the reset input, a memory access, and a
request that is accepted. R77's four steps and the meetings of R116 are its values (Machine/HostPort.lean). -/
structure Edge where
  /-- `rst` -/
  rst : Bool
  /-- `host_en`, with `host_we`, `host_addr` and `host_wdata` -/
  host : Option HostAccess
  /-- `req_valid`, with `req_addr`: the `address` of `run_instruction` (R74) -/
  req : Option Word
  deriving DecidableEq, Repr

/-- The machine. -/
structure State where
  /-- The program counter, in 0..127 in every reachable state (R18). It is not the fetch address (R19). -/
  pc : Word
  /-- The condition flag, the source's `last_sign` (R24). -/
  flag : CondFlag
  /-- The eight general registers `x[0]` to `x[7]` (R14). -/
  x : Vector Word 8
  /-- The memory `M` (R27). -/
  mem : Memory
  /-- The output pulses of the step that led here (R75, R88): pins, not storage. The model's own field. -/
  out : Outputs
  /-- The host's coming edges, oldest first: the environment's choices (R77, R134), written out as data. The model's own
  field; no instruction reads or writes it. -/
  inputs : List Edge
  deriving DecidableEq, Repr

/-- The machine right after reset (10_state.md R31, 70_reset_and_hazards.md R126), with no host edge to come. -/
def State.reset : State where
  pc := 0
  flag := .Z
  x := Vector.replicate 8 0
  mem := []
  out := .quiet
  inputs := []

/-- The faults of the machine: none. "The block raises no synchronous exception and has no cause codes" (60_exceptions.md
R114), and a model "needs no fault, stuck or refusal outcome" (40_engine.md R90). Safe: nothing can stop here. -/
inductive Fault
  deriving DecidableEq, Repr

/-- The refusals of the machine. -/
inductive Refusal where
  /-- An instruction without a meaning yet. Raised by no one: every instruction has its meaning. Safe. -/
  | notModelled (mnemonic : String)
  deriving DecidableEq, Repr

/-- What one step or one instruction answers. -/
abbrev Result := Host.Outcome State Fault Refusal

end Sys2Proof.Machine
end

