-- ==== Sys2Proof/Machine/Ops.lean ====
section
/-! DEFINITION. The named operations over memory, registers and pc (00_scope.md R10), the ALU (40_engine.md R83), the
memory-address translator (20_memory.md R36) and the extension hook (R88).

There is no operation that takes an exception and none that returns from one: the block has neither (60_exceptions.md
R114, R115, R117, R118). -/

namespace Sys2Proof.Machine

/-! ### Memory as data -/

/-- What an index nothing has written reads as: the reset value 0 (10_state.md R31). -/
def Memory.unlisted : Word := 0

/-- The word at an index. -/
def Memory.get : Memory → Nat → Word
  | [], _ => Memory.unlisted
  | (k, w) :: m, a => if k = a then w else Memory.get m a

/-- The memory without an entry for an index. -/
def Memory.erase (m : Memory) (a : Nat) : Memory := m.filter (fun c => c.1 ≠ a)

/-- The memory with the entry `(a, v)` in its place by index. -/
def Memory.insert : Memory → Nat → Word → Memory
  | [], a, v => [(a, v)]
  | (k, w) :: m, a, v =>
    if a < k then (a, v) :: (k, w) :: m
    else if k = a then (a, v) :: m
    else (k, w) :: Memory.insert m a v

/-- The memory with the word at an index replaced, in canonical form again. -/
def Memory.set (m : Memory) (a : Nat) (v : Word) : Memory :=
  if v = Memory.unlisted then Memory.erase m a else Memory.insert m a v

/-- The canonical form: indices strictly rising, each in 0..127 (10_state.md R32), and no entry that says what an unlisted
index reads as. -/
abbrev Memory.wf (m : Memory) : Prop :=
  m.Pairwise (fun c d => c.1 < d.1) ∧ ∀ c ∈ m, c.1 < Config.memorySize ∧ c.2 ≠ Memory.unlisted

/-! ### The translator and the accesses -/

/-- The memory-address translator `tr(a) = a mod 128` (20_memory.md R36), for memory indices and pc values alike. -/
def tr (a : Word) : Word := BitVec.ofNat 16 (a.toNat % Config.memorySize)

/-- `MemRead(a, 1)`: the whole word `M[tr(a)]` (R10, R41). -/
def State.memRead (s : State) (a : Word) : Word := Memory.get s.mem (tr a).toNat

/-- `MemWrite(a, 1, v)`: replaces the whole word `M[tr(a)]` (R10, R41). -/
def State.memWrite (s : State) (a v : Word) : State := { s with mem := Memory.set s.mem (tr a).toNat v }

/-! ### Registers, pc and hook -/

/-- Reads `x[i]` (R10). No register is hardwired (R15). -/
def State.getX (s : State) (i : RegIx) : Word := s.x[i]

/-- `x[i] <- v` (R10). -/
def State.setX (s : State) (i : RegIx) (v : Word) : State := { s with x := s.x.set i v }

/-- `pc <- t`: every write to the pc is reduced modulo 128 (10_state.md R20). -/
def State.setPc (s : State) (t : Word) : State := { s with pc := tr t }

/-- The hook's pulse for a reserved opcode: the opcode and the whole instruction word (R88). Nothing else changes. -/
def State.pulseHook (s : State) (op : BitVec 4) (payload : BitVec 12) : State :=
  { s with out := { s.out with hook := some ⟨op, op ++ payload⟩ } }

/-! ### The ALU (R83) -/

/-- `ADD16(a, b) = a +16 b`, the carry discarded. -/
def add16 (a b : Word) : Word := a + b

/-- `AND16(a, b) = a & b`. -/
def and16 (a b : Word) : Word := a &&& b

/-- `NOT16(a) = ~a`. -/
def not16 (a : Word) : Word := ~~~a

end Sys2Proof.Machine
end

