-- ==== Sys2Proof/Machine/Flags.lean ====
section
/-! DEFINITION. The condition-flag tracker (40_engine.md R85) and BR's condition (R87). -/

namespace Sys2Proof.Machine

/-- `signOf(v)`: N when bit 15 is set, Z when every bit is 0, P otherwise (R85). -/
def signOf (v : Word) : CondFlag := if v[15] then .N else if v = 0 then .Z else .P

/-- `setflag(v)` (R85). -/
def State.setFlag (s : State) (v : Word) : State := { s with flag := signOf v }

/-- Writes the destination register of a flag-setting instruction and then sets the flag from the value now in it
(R85, R25). -/
def State.writeDest (s : State) (dr : RegIx) (v : Word) : State := (s.setX dr v).setFlag ((s.setX dr v).getX dr)

/-- `cond_true(n, z, p, flag)`: the enable bit of the current flag value is 1 (R87, R91). -/
def condTrue (n z p : Bool) : CondFlag → Bool
  | .N => n
  | .Z => z
  | .P => p

end Sys2Proof.Machine
end

