-- ==== Sys2Proof/Machine/Operands.lean ====
section
/-! DEFINITION. Operand forms and addresses: zero extension (30_encoding.md R65, 00_scope.md R8) and the address sources of
20_memory.md R35. The addresses here are the 16-bit values before translation; `memRead`, `memWrite` and `setPc` translate
them, and `effective` is the address adder with its translation (40_engine.md R84). -/

namespace Sys2Proof.Machine

/-- `zext_16(v)`, the only widening there is (R8, R65). -/
def zext {n : Nat} (v : BitVec n) : Word := v.setWidth 16

/-- PC-relative: `pc +16 zext_16(offset)` (R35). -/
def pcRel {n : Nat} (pc : Word) (offset : BitVec n) : Word := add16 pc (zext offset)

/-- Base-field-relative: `zext_16(base) +16 zext_16(offset6)` (R35). `base` is a number; no register is read (R95). -/
def baseRel (base : BitVec 3) (offset6 : BitVec 6) : Word := add16 (zext base) (zext offset6)

/-- The address adder: `EA(a, b) = tr(a +16 b)` (R84). -/
def effective (a b : Word) : Word := tr (add16 a b)

end Sys2Proof.Machine
end

