-- ==== Sys2Proof/Machine/Control.lean ====
section
/-! DEFINITION. Control transfer: BR, JSR, JSRR, JMP (41_control.md). No instruction advances the pc on its own (R21). -/

namespace Sys2Proof.Machine

/-- BR (R91). -/
def execBr (n z p : Bool) (offset9 : BitVec 9) (s : State) : Result :=
  if condTrue n z p s.flag then .next (s.setPc (pcRel s.pc offset9)) else .next s

/-- JSR (R92): the link is the pc at the start, and the target is computed from it. -/
def execJsr (offset11 : BitVec 11) (s : State) : Result :=
  .next ((s.setX Config.linkReg s.pc).setPc (pcRel s.pc offset11))

/-- JSRR (R93): the target is the base field itself; no register is read (R95). -/
def execJsrr (base : BitVec 3) (s : State) : Result :=
  .next ((s.setX Config.linkReg s.pc).setPc (zext base))

/-- JMP (R94): the target is the base field itself; no register is read (R95). -/
def execJmp (base : BitVec 3) (s : State) : Result :=
  .next (s.setPc (zext base))

end Sys2Proof.Machine
end

