-- ==== Sys2Proof/Machine/LoadStore.lean ====
section
/-! DEFINITION. Loads, stores and LEA (43_load_store.md). -/

namespace Sys2Proof.Machine

/-- LD (R103). -/
def execLd (dr : RegIx) (offset9 : BitVec 9) (s : State) : Result :=
  .next (s.writeDest dr (s.memRead (pcRel s.pc offset9)))

/-- ST (R104). -/
def execSt (sr : RegIx) (offset9 : BitVec 9) (s : State) : Result :=
  .next (s.memWrite (pcRel s.pc offset9) (s.getX sr))

/-- LDR (R105). -/
def execLdr (dr : RegIx) (base : BitVec 3) (offset6 : BitVec 6) (s : State) : Result :=
  .next (s.writeDest dr (s.memRead (baseRel base offset6)))

/-- STR (R106). -/
def execStr (sr : RegIx) (base : BitVec 3) (offset6 : BitVec 6) (s : State) : Result :=
  .next (s.memWrite (baseRel base offset6) (s.getX sr))

/-- LDI (R107): the pointer word is read first, then the word it points to. -/
def execLdi (dr : RegIx) (offset9 : BitVec 9) (s : State) : Result :=
  .next (s.writeDest dr (s.memRead (s.memRead (pcRel s.pc offset9))))

/-- STI (R108): the pointer word is read before the write. -/
def execSti (sr : RegIx) (offset9 : BitVec 9) (s : State) : Result :=
  .next (s.memWrite (s.memRead (pcRel s.pc offset9)) (s.getX sr))

/-- LEA (R109): the translated address, not the 16-bit sum. No memory is accessed. -/
def execLea (dr : RegIx) (offset9 : BitVec 9) (s : State) : Result :=
  .next (s.writeDest dr (effective s.pc (zext offset9)))

end Sys2Proof.Machine
end

