-- ==== Sys2Proof/Machine/Operate.lean ====
section
/-! DEFINITION. Operate instructions: ADD, AND, NOT (42_operate.md). The sources are read before the destination is written
(00_scope.md R11). -/

namespace Sys2Proof.Machine

/-- ADD, register form (R97). -/
def execAddReg (dr sr1 sr2 : RegIx) (s : State) : Result :=
  .next (s.writeDest dr (add16 (s.getX sr1) (s.getX sr2)))

/-- ADD, immediate form (R98). -/
def execAddImm (dr sr1 : RegIx) (imm5 : BitVec 5) (s : State) : Result :=
  .next (s.writeDest dr (add16 (s.getX sr1) (zext imm5)))

/-- AND, register form (R99). -/
def execAndReg (dr sr1 sr2 : RegIx) (s : State) : Result :=
  .next (s.writeDest dr (and16 (s.getX sr1) (s.getX sr2)))

/-- AND, immediate form (R100). -/
def execAndImm (dr sr1 : RegIx) (imm5 : BitVec 5) (s : State) : Result :=
  .next (s.writeDest dr (and16 (s.getX sr1) (zext imm5)))

/-- NOT (R101). -/
def execNot (dr sr1 : RegIx) (s : State) : Result :=
  .next (s.writeDest dr (not16 (s.getX sr1)))

end Sys2Proof.Machine
end

