-- ==== Sys2Proof/Machine/Reserved.lean ====
section
/-! DEFINITION. The reserved opcodes (44_reserved.md): no-ops that pulse the extension hook (40_engine.md R88). -/

namespace Sys2Proof.Machine

/-- LOOKUP (R110): a no-op. -/
def execLookup (payload : BitVec 12) (s : State) : Result := .next (s.pulseHook 8 payload)

/-- BSET (R111): a no-op. -/
def execBset (payload : BitVec 12) (s : State) : Result := .next (s.pulseHook 13 payload)

/-- SENDACC (R112): a no-op. It waits for nothing. -/
def execSendacc (payload : BitVec 12) (s : State) : Result := .next (s.pulseHook 15 payload)

end Sys2Proof.Machine
end

