-- ==== Sys2Proof/Machine/Dispatch.lean ====
section
/-! DEFINITION. Dispatch: exactly one handler runs for each instruction (40_engine.md R81). -/

namespace Sys2Proof.Machine

def exec (i : Instr) (s : State) : Host.Outcome State Fault Refusal :=
  match i with
  | .br n z p offset9 => Sys2Proof.Machine.execBr n z p offset9 s
  | .addReg dr sr1 sr2 => Sys2Proof.Machine.execAddReg dr sr1 sr2 s
  | .addImm dr sr1 imm5 => Sys2Proof.Machine.execAddImm dr sr1 imm5 s
  | .ld dr offset9 => Sys2Proof.Machine.execLd dr offset9 s
  | .st sr offset9 => Sys2Proof.Machine.execSt sr offset9 s
  | .jsrr base => Sys2Proof.Machine.execJsrr base s
  | .jsr offset11 => Sys2Proof.Machine.execJsr offset11 s
  | .andReg dr sr1 sr2 => Sys2Proof.Machine.execAndReg dr sr1 sr2 s
  | .andImm dr sr1 imm5 => Sys2Proof.Machine.execAndImm dr sr1 imm5 s
  | .ldr dr base offset6 => Sys2Proof.Machine.execLdr dr base offset6 s
  | .str sr base offset6 => Sys2Proof.Machine.execStr sr base offset6 s
  | .lookup payload => Sys2Proof.Machine.execLookup payload s
  | .not dr sr1 => Sys2Proof.Machine.execNot dr sr1 s
  | .ldi dr offset9 => Sys2Proof.Machine.execLdi dr offset9 s
  | .sti sr offset9 => Sys2Proof.Machine.execSti sr offset9 s
  | .jmp base => Sys2Proof.Machine.execJmp base s
  | .bset payload => Sys2Proof.Machine.execBset payload s
  | .lea dr offset9 => Sys2Proof.Machine.execLea dr offset9 s
  | .sendacc payload => Sys2Proof.Machine.execSendacc payload s

end Sys2Proof.Machine
end

