-- ==== Sys2Proof/Machine/HostPort.lean ====
section
/-! DEFINITION. The host's side of the block: R77's steps as edges, what an edge does besides running an instruction
(40_engine.md R76, 70_reset_and_hazards.md R126), the fetch (R78), and the output ports (R75). -/

namespace Sys2Proof.Machine

/-! ### The host's steps (R77) -/

/-- `Reset` (R126). -/
def Edge.reset : Edge := ⟨true, none, none⟩

/-- `Load(a, v)` (R76). -/
def Edge.load (a v : Word) : Edge := ⟨false, some (.load a v), none⟩

/-- `Read(a)` (R76). -/
def Edge.read (a : Word) : Edge := ⟨false, some (.read a), none⟩

/-- `Exec(address)` (R74). -/
def Edge.exec (address : Word) : Edge := ⟨false, none, some address⟩

/-- A load together with an accepted request (R76, R116). -/
def Edge.loadExec (a v address : Word) : Edge := ⟨false, some (.load a v), some address⟩

/-! ### What an edge does -/

/-- Between transactions with nothing presented the block holds its state (60_exceptions.md R125); the pulses are over. -/
def State.idle (s : State) : State := { s with out := .quiet }

/-- The oldest edge is taken from the host's list, and the pulses of the step before are over (R75). -/
def State.takeEdge (s : State) (rest : List Edge) : State := { s with out := .quiet, inputs := rest }

/-- `rst` = 1: the reset state, whatever was held before (R126). What the host does next is not the block's. -/
def State.resetBlock (s : State) : State := { State.reset with inputs := s.inputs }

/-- A host access (R76): a load writes `M[tr(addr)]`; a read has no effect on the state. -/
def State.hostAccess (s : State) : Option HostAccess → State
  | none => s
  | some (.load a v) => s.memWrite a v
  | some (.read _) => s

/-- A transaction's completion, pulsed on `rsp_done` at the edge at which its effects become the state (R75, R82). -/
def State.complete (s : State) : State := { s with out := { s.out with rspDone := true } }

/-- Fetch: the word `M[tr(address)]` (R78). It writes nothing (R79). -/
def State.fetch (s : State) (address : Word) : Word := s.memRead address

/-! ### The output ports (R75) -/

/-- The output ports of the block between two edges. -/
structure OutputPorts where
  reqReady : Bool
  rspDone : Bool
  extValid : Bool
  /-- `ext_op` and `ext_word`, which mean something only while `ext_valid` = 1 (R75). -/
  ext : Option HookPulse
  hostRdata : Word
  obsPc : Word
  /-- One-hot `{n, z, p}` (10_state.md R24). -/
  obsFlag : BitVec 3
  obsX : Vector Word 8
  deriving DecidableEq, Repr

/-- The one-hot encoding of the flag on `obs_flag` (10_state.md R24). -/
def CondFlag.oneHot : CondFlag → BitVec 3
  | .N => 0b100
  | .Z => 0b010
  | .P => 0b001

/-- What the output ports show while the host drives `host_addr` (R75, R76). Every state of the model lies between
transactions, so the block is idle and `req_ready` is 1 (R125). -/
def State.ports (s : State) (hostAddr : Word) : OutputPorts where
  reqReady := true
  rspDone := s.out.rspDone
  extValid := s.out.hook.isSome
  ext := s.out.hook
  hostRdata := s.memRead hostAddr
  obsPc := s.pc
  obsFlag := s.flag.oneHot
  obsX := s.x

end Sys2Proof.Machine
end

