-- ==== Sys2Proof/Machine/Step.lean ====
section
/-! DEFINITION. One step: the host's next edge (40_engine.md R74 to R77). -/

namespace Sys2Proof.Machine

/-- One step. With no edge to come the block idles (60_exceptions.md R125). Otherwise it takes the oldest edge: reset wins
over everything (R116, R126); else the host access takes effect first, and then an accepted request is one transaction,
which fetches the word at its address and runs its instruction (R74, R76). -/
def step (s : State) : Host.Outcome State Fault Refusal :=
  match s.inputs with
  | [] => .next s.idle
  | e :: rest =>
    if e.rst then .next (s.takeEdge rest).resetBlock
    else
      let t := (s.takeEdge rest).hostAccess e.host
      match e.req with
      | none => .next t
      | some address => exec (decode (t.fetch address)) t.complete

/-- The state with an instruction stored where the next step fetches: its word in memory at `Config.probeAddress`, as the
host's load would leave it, and the host's request for that address as the oldest edge (log entry 3). -/
def State.withFetchWord (s : State) (nbits w : Nat) : State :=
  { s.memWrite Config.probeAddress (BitVec.ofNat 16 (w % 2 ^ nbits)) with
    inputs := Edge.exec Config.probeAddress :: s.inputs }

end Sys2Proof.Machine
end

