-- ==== Sys2Proof/Safety.lean ====
section
/-! DEFINITION. What a safe state and a safe run are, and the terms in which the statements speak of a change: the flag that
describes a value, and what stayed as it was. -/

namespace Sys2Proof.Machine

/-- The invariants of 10_state.md R32 that the types do not already give: `pc` in 0..127 (R18), and the memory in its
canonical form, whose indices are in 0..127. -/
abbrev State.Inv (s : State) : Prop := s.pc.toNat < Config.memorySize ∧ Memory.wf s.mem

/-- The flag `f` describes `v` read as a signed 16-bit integer: "`Negative` if strictly less than zero, `Positive` if
strictly greater than zero, else `Zero`" (40_engine.md R85). -/
def FlagDescribes (f : CondFlag) (v : Word) : Prop :=
  match f with
  | .N => v.toInt < 0
  | .Z => v.toInt = 0
  | .P => 0 < v.toInt

/-- Every general register but `r` is unchanged. -/
def RegsKeptBut (r : RegIx) (s t : State) : Prop := ∀ i : RegIx, i ≠ r → t.x[i] = s.x[i]

/-- Every memory word is unchanged. -/
def MemKept (s t : State) : Prop := ∀ a : Nat, Memory.get t.mem a = Memory.get s.mem a

/-- Every memory word but the one at index `a` is unchanged. -/
def MemKeptBut (a : Nat) (s t : State) : Prop := ∀ b : Nat, b ≠ a → Memory.get t.mem b = Memory.get s.mem b

/-- The output pulses and the host's coming edges are unchanged. -/
def PortsKept (s t : State) : Prop := t.out = s.out ∧ t.inputs = s.inputs

/-- The four pieces of R13 are unchanged: `pc`, `flag`, every register, every memory word. -/
def CellKept (s t : State) : Prop := t.pc = s.pc ∧ t.flag = s.flag ∧ t.x = s.x ∧ MemKept s t

/-- The state after reset with a host's edges to come: where a host's run begins (70_reset_and_hazards.md R129, R134). -/
def State.resetWith (edges : List Edge) : State := { State.reset with inputs := edges }

/-- A run is safe up to `k` steps: it ends in a next state, never in a fault or a refusal, and that state meets the
invariant. -/
def SafeFor (k : Nat) (s : State) : Prop :=
  ∃ t : State, Sys2Proof.core.run k s = .next t ∧ t.Inv

/-! ### What each instruction reads and writes, as the spec's tables list it -/

/-- The destination register of a flag-setting instruction, none for the others (40_engine.md R86). -/
def flagDest : Instr → Option RegIx
  | .addReg dr _ _ => some dr
  | .addImm dr _ _ => some dr
  | .andReg dr _ _ => some dr
  | .andImm dr _ _ => some dr
  | .not dr _ => some dr
  | .ld dr _ => some dr
  | .ldr dr _ _ => some dr
  | .ldi dr _ => some dr
  | .lea dr _ => some dr
  | .br _ _ _ _ => none
  | .st _ _ => none
  | .str _ _ _ => none
  | .sti _ _ => none
  | .jsr _ => none
  | .jsrr _ => none
  | .jmp _ => none
  | .lookup _ => none
  | .bset _ => none
  | .sendacc _ => none

/-- The general register an instruction writes (10_state.md R17): the link register for JSR and JSRR, else `flagDest`. -/
def regDest : Instr → Option RegIx
  | .jsr _ => some 7
  | .jsrr _ => some 7
  | i => flagDest i

/-- The general registers an instruction reads (10_state.md R17). -/
def regSources : Instr → List RegIx
  | .addReg _ sr1 sr2 => [sr1, sr2]
  | .addImm _ sr1 _ => [sr1]
  | .andReg _ sr1 sr2 => [sr1, sr2]
  | .andImm _ sr1 _ => [sr1]
  | .not _ sr1 => [sr1]
  | .st sr _ => [sr]
  | .str sr _ _ => [sr]
  | .sti sr _ => [sr]
  | .br _ _ _ _ => []
  | .ld _ _ => []
  | .ldr _ _ _ => []
  | .ldi _ _ => []
  | .lea _ _ => []
  | .jsr _ => []
  | .jsrr _ => []
  | .jmp _ => []
  | .lookup _ => []
  | .bset _ => []
  | .sendacc _ => []

/-- The index of the memory word an instruction stores to, by the expression its meaning uses; none for an instruction
that stores nothing (20_memory.md R41). -/
def storeIndex (i : Instr) (s : State) : Option Nat :=
  match i with
  | .st _ offset9 => some (tr (pcRel s.pc offset9)).toNat
  | .str _ base offset6 => some (tr (baseRel base offset6)).toNat
  | .sti _ offset9 => some (tr (s.memRead (pcRel s.pc offset9))).toNat
  | _ => none

/-- The instructions that can write the pc: BR when its condition holds, JSR, JSRR and JMP (10_state.md R21). -/
def writesPc (i : Instr) (f : CondFlag) : Bool :=
  match i with
  | .br n z p _ => condTrue n z p f
  | .jsr _ => true
  | .jsrr _ => true
  | .jmp _ => true
  | _ => false

end Sys2Proof.Machine
end

