-- ==== Sys2Proof/Certificates/Slice0/Obligations.lean ====
section
/-! DEFINITION. The statements for the provers. OBLIGATIONS.json gives each its rule and its words. The instruction
statements have one shape: which words are the instruction and where their fields lie, and that the instruction ANSWERS
A NEXT STATE for every operand and every state, what that state holds, and all that it leaves as it was. -/

open Sys2Proof Sys2Proof.Machine

/-! ### Operate instructions -/

/-- ADD, register form (R97). The place of `sr2` and the ignored bits are the spec's own decisions D2 and D4. -/
def Obligations.AddRegisterFormAddsModulo65536 : Prop :=
  (∀ w : Word, w &&& 0xF020 = 0x1000 → ∃ dr sr1 sr2 : RegIx, decode w = .addReg dr sr1 sr2 ∧
    dr.val = w.toNat / 512 % 8 ∧ sr1.val = w.toNat / 64 % 8 ∧ sr2.val = w.toNat % 8) ∧
  ∀ (dr sr1 sr2 : RegIx) (s : State), ∃ t : State, exec (.addReg dr sr1 sr2) s = .next t ∧
    t.x[dr].toNat = (s.x[sr1].toNat + s.x[sr2].toNat) % 65536 ∧ FlagDescribes t.flag t.x[dr] ∧
    RegsKeptBut dr s t ∧ t.pc = s.pc ∧ MemKept s t ∧ PortsKept s t

/-- ADD, immediate form (R98). -/
def Obligations.AddImmediateFormAddsUnsignedLiteral : Prop :=
  (∀ w : Word, w &&& 0xF020 = 0x1020 → ∃ (dr sr1 : RegIx) (imm5 : BitVec 5), decode w = .addImm dr sr1 imm5 ∧
    dr.val = w.toNat / 512 % 8 ∧ sr1.val = w.toNat / 64 % 8 ∧ imm5.toNat = w.toNat % 32) ∧
  ∀ (dr sr1 : RegIx) (imm5 : BitVec 5) (s : State), ∃ t : State, exec (.addImm dr sr1 imm5) s = .next t ∧
    t.x[dr].toNat = (s.x[sr1].toNat + imm5.toNat) % 65536 ∧ FlagDescribes t.flag t.x[dr] ∧
    RegsKeptBut dr s t ∧ t.pc = s.pc ∧ MemKept s t ∧ PortsKept s t

/-- AND, register form (R99), bit by bit. The place of `sr2` and the ignored bits are the spec's own decisions D2 and D4. -/
def Obligations.AndRegisterFormConjoinsEveryBit : Prop :=
  (∀ w : Word, w &&& 0xF020 = 0x5000 → ∃ dr sr1 sr2 : RegIx, decode w = .andReg dr sr1 sr2 ∧
    dr.val = w.toNat / 512 % 8 ∧ sr1.val = w.toNat / 64 % 8 ∧ sr2.val = w.toNat % 8) ∧
  ∀ (dr sr1 sr2 : RegIx) (s : State), ∃ t : State, exec (.andReg dr sr1 sr2) s = .next t ∧
    (∀ k : Nat, t.x[dr].getLsbD k = (s.x[sr1].getLsbD k && s.x[sr2].getLsbD k)) ∧ FlagDescribes t.flag t.x[dr] ∧
    RegsKeptBut dr s t ∧ t.pc = s.pc ∧ MemKept s t ∧ PortsKept s t

/-- AND, immediate form (R100), bit by bit; the result is at most 31 and never N. -/
def Obligations.AndImmediateFormKeepsAtMostFiveBits : Prop :=
  (∀ w : Word, w &&& 0xF020 = 0x5020 → ∃ (dr sr1 : RegIx) (imm5 : BitVec 5), decode w = .andImm dr sr1 imm5 ∧
    dr.val = w.toNat / 512 % 8 ∧ sr1.val = w.toNat / 64 % 8 ∧ imm5.toNat = w.toNat % 32) ∧
  ∀ (dr sr1 : RegIx) (imm5 : BitVec 5) (s : State), ∃ t : State, exec (.andImm dr sr1 imm5) s = .next t ∧
    (∀ k : Nat, t.x[dr].getLsbD k = (s.x[sr1].getLsbD k && imm5.getLsbD k)) ∧ t.x[dr].toNat ≤ 31 ∧
    FlagDescribes t.flag t.x[dr] ∧ t.flag ≠ .N ∧ RegsKeptBut dr s t ∧ t.pc = s.pc ∧ MemKept s t ∧ PortsKept s t

/-- NOT (R101). That bits 5–0 are ignored is the spec's own decision D4. -/
def Obligations.NotComplementsTheSource : Prop :=
  (∀ w : Word, w &&& 0xF000 = 0x9000 → ∃ dr sr1 : RegIx, decode w = .not dr sr1 ∧
    dr.val = w.toNat / 512 % 8 ∧ sr1.val = w.toNat / 64 % 8) ∧
  ∀ (dr sr1 : RegIx) (s : State), ∃ t : State, exec (.not dr sr1) s = .next t ∧
    t.x[dr].toNat = 65535 - s.x[sr1].toNat ∧ FlagDescribes t.flag t.x[dr] ∧
    RegsKeptBut dr s t ∧ t.pc = s.pc ∧ MemKept s t ∧ PortsKept s t

/-! ### Loads, stores and LEA -/

/-- LD (R103). -/
def Obligations.LoadReadsPcRelativeWord : Prop :=
  (∀ w : Word, w &&& 0xF000 = 0x2000 → ∃ (dr : RegIx) (offset9 : BitVec 9), decode w = .ld dr offset9 ∧
    dr.val = w.toNat / 512 % 8 ∧ offset9.toNat = w.toNat % 512) ∧
  ∀ (dr : RegIx) (offset9 : BitVec 9) (s : State), ∃ t : State, exec (.ld dr offset9) s = .next t ∧
    t.x[dr] = Memory.get s.mem ((s.pc.toNat + offset9.toNat) % 128) ∧ FlagDescribes t.flag t.x[dr] ∧
    RegsKeptBut dr s t ∧ t.pc = s.pc ∧ MemKept s t ∧ PortsKept s t

/-- ST (R104). The index stored to is computed as the meaning computes it. "STORE followed by LOAD at the same effective
address returns the previously stored value exactly". -/
def Obligations.StoreWritesPcRelativeWord : Prop :=
  (∀ w : Word, w &&& 0xF000 = 0x3000 → ∃ (sr : RegIx) (offset9 : BitVec 9), decode w = .st sr offset9 ∧
    sr.val = w.toNat / 512 % 8 ∧ offset9.toNat = w.toNat % 512) ∧
  ∀ (sr : RegIx) (offset9 : BitVec 9) (s : State), ∃ t : State, exec (.st sr offset9) s = .next t ∧
    (tr (pcRel s.pc offset9)).toNat = (s.pc.toNat + offset9.toNat) % 128 ∧
    Memory.get t.mem (tr (pcRel s.pc offset9)).toNat = s.x[sr] ∧ MemKeptBut (tr (pcRel s.pc offset9)).toNat s t ∧
    t.x = s.x ∧ t.flag = s.flag ∧ t.pc = s.pc ∧ PortsKept s t ∧
    ∀ dr : RegIx, ∃ u : State, exec (.ld dr offset9) t = .next u ∧ u.x[dr] = s.x[sr]

/-- LDR (R105): the address is at most 70, and no register is read for it (the spec's own decision D7). -/
def Obligations.LoadRegisterReadsBaseFieldWord : Prop :=
  (∀ w : Word, w &&& 0xF000 = 0x6000 → ∃ (dr : RegIx) (base : BitVec 3) (offset6 : BitVec 6),
    decode w = .ldr dr base offset6 ∧ dr.val = w.toNat / 512 % 8 ∧ base.toNat = w.toNat / 64 % 8 ∧
    offset6.toNat = w.toNat % 64) ∧
  ∀ (dr : RegIx) (base : BitVec 3) (offset6 : BitVec 6) (s : State), ∃ t : State,
    exec (.ldr dr base offset6) s = .next t ∧ t.x[dr] = Memory.get s.mem (base.toNat + offset6.toNat) ∧
    base.toNat + offset6.toNat ≤ 70 ∧ FlagDescribes t.flag t.x[dr] ∧
    RegsKeptBut dr s t ∧ t.pc = s.pc ∧ MemKept s t ∧ PortsKept s t

/-- STR (R106). The index stored to is computed as the meaning computes it. That the base field is a number is the spec's own
decision D7. -/
def Obligations.StoreRegisterWritesBaseFieldWord : Prop :=
  (∀ w : Word, w &&& 0xF000 = 0x7000 → ∃ (sr : RegIx) (base : BitVec 3) (offset6 : BitVec 6),
    decode w = .str sr base offset6 ∧ sr.val = w.toNat / 512 % 8 ∧ base.toNat = w.toNat / 64 % 8 ∧
    offset6.toNat = w.toNat % 64) ∧
  ∀ (sr : RegIx) (base : BitVec 3) (offset6 : BitVec 6) (s : State), ∃ t : State,
    exec (.str sr base offset6) s = .next t ∧
    (tr (baseRel base offset6)).toNat = base.toNat + offset6.toNat ∧ base.toNat + offset6.toNat ≤ 70 ∧
    Memory.get t.mem (tr (baseRel base offset6)).toNat = s.x[sr] ∧ MemKeptBut (tr (baseRel base offset6)).toNat s t ∧
    t.x = s.x ∧ t.flag = s.flag ∧ t.pc = s.pc ∧ PortsKept s t

/-- LDI (R107): the pointer is reduced modulo 128, and the flag is the data word's. -/
def Obligations.LoadIndirectReadsThroughPointer : Prop :=
  (∀ w : Word, w &&& 0xF000 = 0xA000 → ∃ (dr : RegIx) (offset9 : BitVec 9), decode w = .ldi dr offset9 ∧
    dr.val = w.toNat / 512 % 8 ∧ offset9.toNat = w.toNat % 512) ∧
  ∀ (dr : RegIx) (offset9 : BitVec 9) (s : State), ∃ t : State, exec (.ldi dr offset9) s = .next t ∧
    t.x[dr] = Memory.get s.mem ((Memory.get s.mem ((s.pc.toNat + offset9.toNat) % 128)).toNat % 128) ∧
    FlagDescribes t.flag t.x[dr] ∧ RegsKeptBut dr s t ∧ t.pc = s.pc ∧ MemKept s t ∧ PortsKept s t

/-- STI (R108): the pointer is read before the write. The index stored to is computed as the meaning computes it. -/
def Obligations.StoreIndirectWritesThroughPointer : Prop :=
  (∀ w : Word, w &&& 0xF000 = 0xB000 → ∃ (sr : RegIx) (offset9 : BitVec 9), decode w = .sti sr offset9 ∧
    sr.val = w.toNat / 512 % 8 ∧ offset9.toNat = w.toNat % 512) ∧
  ∀ (sr : RegIx) (offset9 : BitVec 9) (s : State), ∃ t : State, exec (.sti sr offset9) s = .next t ∧
    (tr (s.memRead (pcRel s.pc offset9))).toNat =
      (Memory.get s.mem ((s.pc.toNat + offset9.toNat) % 128)).toNat % 128 ∧
    Memory.get t.mem (tr (s.memRead (pcRel s.pc offset9))).toNat = s.x[sr] ∧
    MemKeptBut (tr (s.memRead (pcRel s.pc offset9))).toNat s t ∧
    t.x = s.x ∧ t.flag = s.flag ∧ t.pc = s.pc ∧ PortsKept s t

/-- LEA (R109): the translated address, so never N. -/
def Obligations.LoadEffectiveAddressWritesTranslatedAddress : Prop :=
  (∀ w : Word, w &&& 0xF000 = 0xE000 → ∃ (dr : RegIx) (offset9 : BitVec 9), decode w = .lea dr offset9 ∧
    dr.val = w.toNat / 512 % 8 ∧ offset9.toNat = w.toNat % 512) ∧
  ∀ (dr : RegIx) (offset9 : BitVec 9) (s : State), ∃ t : State, exec (.lea dr offset9) s = .next t ∧
    t.x[dr].toNat = (s.pc.toNat + offset9.toNat) % 128 ∧ FlagDescribes t.flag t.x[dr] ∧ t.flag ≠ .N ∧
    RegsKeptBut dr s t ∧ t.pc = s.pc ∧ MemKept s t ∧ PortsKept s t

/-! ### Control transfer -/

/-- BR (R91): taken exactly when the enable bit of the current flag is set; nothing but the pc can change. Which bit enables
which flag is the spec's own decision D3. -/
def Obligations.BranchFollowsItsMask : Prop :=
  (∀ w : Word, w &&& 0xF000 = 0x0000 → ∃ (n z p : Bool) (offset9 : BitVec 9), decode w = .br n z p offset9 ∧
    n.toNat = w.toNat / 2048 % 2 ∧ z.toNat = w.toNat / 1024 % 2 ∧ p.toNat = w.toNat / 512 % 2 ∧
    offset9.toNat = w.toNat % 512) ∧
  ∀ (n z p : Bool) (offset9 : BitVec 9) (s : State), ∃ t : State, exec (.br n z p offset9) s = .next t ∧
    ((n = true ∧ s.flag = .N ∨ z = true ∧ s.flag = .Z ∨ p = true ∧ s.flag = .P) →
      t.pc.toNat = (s.pc.toNat + offset9.toNat) % 128) ∧
    (¬(n = true ∧ s.flag = .N ∨ z = true ∧ s.flag = .Z ∨ p = true ∧ s.flag = .P) → t.pc = s.pc) ∧
    t.x = s.x ∧ t.flag = s.flag ∧ MemKept s t ∧ PortsKept s t

/-- JSR (R92): the link is the pc before the jump. -/
def Obligations.JumpToSubroutineLinksAndJumps : Prop :=
  (∀ w : Word, w &&& 0xF800 = 0x4800 → ∃ offset11 : BitVec 11, decode w = .jsr offset11 ∧
    offset11.toNat = w.toNat % 2048) ∧
  ∀ (offset11 : BitVec 11) (s : State), ∃ t : State, exec (.jsr offset11) s = .next t ∧
    t.x[7] = s.pc ∧ (s.pc.toNat < 128 → t.x[7].toNat < 128) ∧ t.pc.toNat = (s.pc.toNat + offset11.toNat) % 128 ∧
    RegsKeptBut 7 s t ∧ t.flag = s.flag ∧ MemKept s t ∧ PortsKept s t

/-- JSRR (R93): the target is the base field, whatever the registers hold (the spec's own decision D7). -/
def Obligations.JumpToSubroutineBaseFieldLinksAndJumps : Prop :=
  (∀ w : Word, w &&& 0xF800 = 0x4000 → ∃ base : BitVec 3, decode w = .jsrr base ∧ base.toNat = w.toNat / 64 % 8) ∧
  ∀ (base : BitVec 3) (s : State), ∃ t : State, exec (.jsrr base) s = .next t ∧
    t.x[7] = s.pc ∧ t.pc.toNat = base.toNat ∧ RegsKeptBut 7 s t ∧ t.flag = s.flag ∧ MemKept s t ∧ PortsKept s t

/-- JMP (R94): the target is the base field, whatever the registers hold (the spec's own decision D7); no register is
written. -/
def Obligations.JumpGoesToBaseField : Prop :=
  (∀ w : Word, w &&& 0xF000 = 0xC000 → ∃ base : BitVec 3, decode w = .jmp base ∧ base.toNat = w.toNat / 64 % 8) ∧
  ∀ (base : BitVec 3) (s : State), ∃ t : State, exec (.jmp base) s = .next t ∧
    t.pc.toNat = base.toNat ∧ t.x = s.x ∧ t.flag = s.flag ∧ MemKept s t ∧ PortsKept s t

/-! ### Reserved opcodes and the extension hook -/

/-- LOOKUP, BSET and SENDACC (R110, R111, R112): the state is unchanged, and the hook, which is the spec's own
decision D10, shows the opcode and the word. -/
def Obligations.ReservedOpcodesChangeNothingAndPulse : Prop :=
  (∀ w : Word, (w &&& 0xF000 = 0x8000 → ∃ q : BitVec 12, decode w = .lookup q ∧ q.toNat = w.toNat % 4096) ∧
    (w &&& 0xF000 = 0xD000 → ∃ q : BitVec 12, decode w = .bset q ∧ q.toNat = w.toNat % 4096) ∧
    (w &&& 0xF000 = 0xF000 → ∃ q : BitVec 12, decode w = .sendacc q ∧ q.toNat = w.toNat % 4096)) ∧
  ∀ (q : BitVec 12) (s : State),
    (∃ (t : State) (w : Word), exec (.lookup q) s = .next t ∧ CellKept s t ∧ t.inputs = s.inputs ∧
      t.out.rspDone = s.out.rspDone ∧ t.out.hook = some ⟨8, w⟩ ∧ w.toNat = 0x8000 + q.toNat) ∧
    (∃ (t : State) (w : Word), exec (.bset q) s = .next t ∧ CellKept s t ∧ t.inputs = s.inputs ∧
      t.out.rspDone = s.out.rspDone ∧ t.out.hook = some ⟨13, w⟩ ∧ w.toNat = 0xD000 + q.toNat) ∧
    (∃ (t : State) (w : Word), exec (.sendacc q) s = .next t ∧ CellKept s t ∧ t.inputs = s.inputs ∧
      t.out.rspDone = s.out.rspDone ∧ t.out.hook = some ⟨15, w⟩ ∧ w.toNat = 0xF000 + q.toNat)

/-- The hook pulses exactly when a transaction executes a reserved opcode, and then shows that opcode and the whole fetched
word; the transaction completes (R88; the hook is the spec's own decision D10). -/
def Obligations.HookReportsExactlyTheReservedWords : Prop :=
  ∀ (s : State) (a : Word) (rest : List Edge), s.inputs = Edge.exec a :: rest →
    let w := Memory.get s.mem (a.toNat % 128)
    ∃ t : State, step s = .next t ∧ t.out.rspDone = true ∧ t.inputs = rest ∧
      if w.toNat / 4096 = 8 ∨ w.toNat / 4096 = 13 ∨ w.toNat / 4096 = 15 then
        t.out.hook = some ⟨BitVec.ofNat 4 (w.toNat / 4096), w⟩ ∧ CellKept s t
      else t.out.hook = none

/-- The words that act as no-ops (R69): BR with mask 0, the reserved opcodes, and so the word memory holds after reset. The
spec marks R69 as derived. -/
def Obligations.NoOpWordsChangeNothing : Prop :=
  (∀ (w : Word) (s : State),
    (w.toNat < 512 ∨ w.toNat / 4096 = 8 ∨ w.toNat / 4096 = 13 ∨ w.toNat / 4096 = 15) →
      ∃ t : State, exec (decode w) s = .next t ∧ CellKept s t) ∧
  ∀ a : Nat, (Memory.get State.reset.mem a).toNat < 512

/-! ### Decoding and encoding -/

/-- The opcode map (R73): its 19 rows, each word matching exactly one of them, which is its instruction's. The opcode
numbers are the spec's own decision D1. -/
def Obligations.EveryWordMatchesExactlyOneRow : Prop :=
  opcodeMap.map (fun r => (r.mnemonic, r.pattern.toNat, r.mask.toNat)) =
    [("BR", 0x0000, 0xF000), ("ADD", 0x1000, 0xF020), ("ADD", 0x1020, 0xF020), ("LD", 0x2000, 0xF000),
     ("ST", 0x3000, 0xF000), ("JSRR", 0x4000, 0xF800), ("JSR", 0x4800, 0xF800), ("AND", 0x5000, 0xF020),
     ("AND", 0x5020, 0xF020), ("LDR", 0x6000, 0xF000), ("STR", 0x7000, 0xF000), ("LOOKUP", 0x8000, 0xF000),
     ("NOT", 0x9000, 0xF000), ("LDI", 0xA000, 0xF000), ("STI", 0xB000, 0xF000), ("JMP", 0xC000, 0xF000),
     ("BSET", 0xD000, 0xF000), ("LEA", 0xE000, 0xF000), ("SENDACC", 0xF000, 0xF000)] ∧
  ∀ w : Word, (∃! r : MapRow, r ∈ opcodeMap ∧ w &&& r.mask = r.pattern) ∧
    mapRow (decode w) ∈ opcodeMap ∧ w &&& (mapRow (decode w)).mask = (mapRow (decode w)).pattern

/-- Decode and encode agree: every operand at every value survives the encoding. -/
def Obligations.DecodingAnEncodedInstructionGivesItBack : Prop :=
  ∀ i : Instr, decode (encode i) = i

/-- The other direction, encode of decode: a word and the word its instruction encodes to differ in bits marked `x` only.
`usedBits` clears those of the formats R56, R58, R61 and R63. It keeps a reserved opcode's 12 low bits, which R64 marks `x`
too: that they are an operand, for the hook to report (R88), is the model's choice, log entry 5. That ignored bits are
ignored, and assembled as 0 (R71), are the spec's own decisions D4 and D17; the hook is its decision D10. -/
def Obligations.EncodingADecodedWordKeepsItsUsedBits : Prop :=
  ∀ w : Word, encode (decode w) = w &&& usedBits (decode w)

/-- Ignored bits of ADD and AND (register form), NOT, JSRR and JMP (R56, R58, R61, R63, R67): two words that agree on the bits
the first one's format uses are one instruction. This is the spec's own decision D4. The 12 bits R64 marks `x` in a reserved
opcode are not covered: the model keeps them as an operand for the hook (R88, decision D10), which is its choice, log entry 5,
so that 0x8000 and 0x8001 are two terms here. -/
def Obligations.IgnoredBitsDoNotChangeTheInstruction : Prop :=
  ∀ w v : Word, w &&& usedBits (decode w) = v &&& usedBits (decode w) → decode v = decode w

/-- Words written out from the spec's encodings decode to their instructions: 0x47FF, 0x6FFF and 0x9FFF of
95_test_vectors.md 2.1, 0x102F of R57 and E7, 0x0405 of R91 and 2.5, and 0xDABC of R111. They rest on the spec's own
decisions D1 (opcode numbers), D3 (the enable bits), D4 (ignored bits) and D7 (the base field is a number); that BSET's payload
is an operand is log entry 5. -/
def Obligations.WrittenWordsDecodeToTheirInstructions : Prop :=
  decode 0b0001000000101111 = .addImm 0 0 15 ∧ decode 0b0100011111111111 = .jsrr 7 ∧
  decode 0b0110111111111111 = .ldr 7 7 63 ∧ decode 0b1001111111111111 = .not 7 7 ∧
  decode 0b0000010000000101 = .br false true false 5 ∧ decode 0b1101101010111100 = .bset 0xABC

/-- The notation (R71, R72), every form of it: a line whose numbers fit their fields assembles to a word that decodes to the
operands written, and a line with a number outside its field assembles to nothing. The notation is the spec's own decision
D17, and what its words decode to rests on D1 to D4; that a line is its numbers, and that an ill-formed one assembles to
nothing, is the model's choice, log entry 10. -/
def Obligations.AssembledLinesDecodeToTheirOperands : Prop :=
  (∀ l : Line, l.wellFormed = false → l.assemble = none) ∧
  ∀ l : Line, match l with
    | .br n z p off9 =>
      if off9 < 512 then ∃ (w : Word) (o : BitVec 9), l.assemble = some w ∧ decode w = .br n z p o ∧ o.toNat = off9
      else l.assemble = none
    | .add rd rs1 rs2 =>
      if rd < 8 ∧ rs1 < 8 ∧ rs2 < 8 then ∃ (w : Word) (d a b : RegIx), l.assemble = some w ∧
        decode w = .addReg d a b ∧ d.val = rd ∧ a.val = rs1 ∧ b.val = rs2
      else l.assemble = none
    | .addLit rd rs1 imm5 =>
      if rd < 8 ∧ rs1 < 8 ∧ imm5 < 32 then ∃ (w : Word) (d a : RegIx) (o : BitVec 5), l.assemble = some w ∧
        decode w = .addImm d a o ∧ d.val = rd ∧ a.val = rs1 ∧ o.toNat = imm5
      else l.assemble = none
    | .and rd rs1 rs2 =>
      if rd < 8 ∧ rs1 < 8 ∧ rs2 < 8 then ∃ (w : Word) (d a b : RegIx), l.assemble = some w ∧
        decode w = .andReg d a b ∧ d.val = rd ∧ a.val = rs1 ∧ b.val = rs2
      else l.assemble = none
    | .andLit rd rs1 imm5 =>
      if rd < 8 ∧ rs1 < 8 ∧ imm5 < 32 then ∃ (w : Word) (d a : RegIx) (o : BitVec 5), l.assemble = some w ∧
        decode w = .andImm d a o ∧ d.val = rd ∧ a.val = rs1 ∧ o.toNat = imm5
      else l.assemble = none
    | .not rd rs =>
      if rd < 8 ∧ rs < 8 then ∃ (w : Word) (d a : RegIx), l.assemble = some w ∧
        decode w = .not d a ∧ d.val = rd ∧ a.val = rs
      else l.assemble = none
    | .ld rd off9 =>
      if rd < 8 ∧ off9 < 512 then ∃ (w : Word) (r : RegIx) (o : BitVec 9), l.assemble = some w ∧
        decode w = .ld r o ∧ r.val = rd ∧ o.toNat = off9
      else l.assemble = none
    | .st rs off9 =>
      if rs < 8 ∧ off9 < 512 then ∃ (w : Word) (r : RegIx) (o : BitVec 9), l.assemble = some w ∧
        decode w = .st r o ∧ r.val = rs ∧ o.toNat = off9
      else l.assemble = none
    | .ldi rd off9 =>
      if rd < 8 ∧ off9 < 512 then ∃ (w : Word) (r : RegIx) (o : BitVec 9), l.assemble = some w ∧
        decode w = .ldi r o ∧ r.val = rd ∧ o.toNat = off9
      else l.assemble = none
    | .sti rs off9 =>
      if rs < 8 ∧ off9 < 512 then ∃ (w : Word) (r : RegIx) (o : BitVec 9), l.assemble = some w ∧
        decode w = .sti r o ∧ r.val = rs ∧ o.toNat = off9
      else l.assemble = none
    | .lea rd off9 =>
      if rd < 8 ∧ off9 < 512 then ∃ (w : Word) (r : RegIx) (o : BitVec 9), l.assemble = some w ∧
        decode w = .lea r o ∧ r.val = rd ∧ o.toNat = off9
      else l.assemble = none
    | .ldr rd base off6 =>
      if rd < 8 ∧ base < 8 ∧ off6 < 64 then ∃ (w : Word) (r : RegIx) (b : BitVec 3) (o : BitVec 6),
        l.assemble = some w ∧ decode w = .ldr r b o ∧ r.val = rd ∧ b.toNat = base ∧ o.toNat = off6
      else l.assemble = none
    | .str rs base off6 =>
      if rs < 8 ∧ base < 8 ∧ off6 < 64 then ∃ (w : Word) (r : RegIx) (b : BitVec 3) (o : BitVec 6),
        l.assemble = some w ∧ decode w = .str r b o ∧ r.val = rs ∧ b.toNat = base ∧ o.toNat = off6
      else l.assemble = none
    | .jsr off11 =>
      if off11 < 2048 then ∃ (w : Word) (o : BitVec 11), l.assemble = some w ∧ decode w = .jsr o ∧ o.toNat = off11
      else l.assemble = none
    | .jsrr base =>
      if base < 8 then ∃ (w : Word) (b : BitVec 3), l.assemble = some w ∧ decode w = .jsrr b ∧ b.toNat = base
      else l.assemble = none
    | .jmp base =>
      if base < 8 then ∃ (w : Word) (b : BitVec 3), l.assemble = some w ∧ decode w = .jmp b ∧ b.toNat = base
      else l.assemble = none
    | .lookup payload =>
      if payload < 4096 then ∃ (w : Word) (q : BitVec 12), l.assemble = some w ∧
        decode w = .lookup q ∧ q.toNat = payload
      else l.assemble = none
    | .bset payload =>
      if payload < 4096 then ∃ (w : Word) (q : BitVec 12), l.assemble = some w ∧ decode w = .bset q ∧ q.toNat = payload
      else l.assemble = none
    | .sendacc payload =>
      if payload < 4096 then ∃ (w : Word) (q : BitVec 12), l.assemble = some w ∧
        decode w = .sendacc q ∧ q.toNat = payload
      else l.assemble = none
    | .nop => l.assemble = some 0x0000
    | .fill v => if v < 65536 then ∃ w : Word, l.assemble = some w ∧ w.toNat = v else l.assemble = none

/-! ### Shared units -/

/-- The translator and the address adder (R37, which the spec marks as derived, and R84). -/
def Obligations.TranslatorKeepsTheLowSevenBits : Prop :=
  ∀ a b : Word, (tr a).toNat = a.toNat % 128 ∧ tr a = (a.extractLsb' 0 7).setWidth 16 ∧
    (tr (a + b)).toNat = (a.toNat + b.toNat) % 128 ∧ (effective a b).toNat = (a.toNat + b.toNat) % 128

/-- The flag tracker (R85): its three ranges, and that a flag-setting instruction leaves the flag of the value now in its
destination register. -/
def Obligations.FlagTrackerSplitsTheSixteenBitRange : Prop :=
  ∀ v : Word, (signOf v = .N ↔ 0x8000 ≤ v.toNat) ∧ (signOf v = .Z ↔ v.toNat = 0) ∧
    (signOf v = .P ↔ 1 ≤ v.toNat ∧ v.toNat ≤ 0x7FFF) ∧ (∀ s : State, s.setFlag v = { s with flag := signOf v }) ∧
    ∀ (i : Instr) (s t : State) (dr : RegIx), exec i s = .next t → flagDest i = some dr → t.flag = signOf t.x[dr]

/-- A read after a write: the written word at every address that translates to the same index, the old word elsewhere. -/
def Obligations.ReadAfterWriteSeesTheWord : Prop :=
  ∀ (s : State) (a b v : Word),
    (b.toNat % 128 = a.toNat % 128 → (s.memWrite a v).memRead b = v) ∧
    (b.toNat % 128 ≠ a.toNat % 128 → (s.memWrite a v).memRead b = s.memRead b)

/-- The canonical form (the model's choice, log entry 2): two memories in it that read alike are equal data. -/
def Obligations.CanonicalMemoriesThatReadAlikeAreEqual : Prop :=
  ∀ m m' : Memory, Memory.wf m → Memory.wf m' → (∀ a : Nat, Memory.get m a = Memory.get m' a) → m = m'

/-! ### Whole-machine rules -/

/-- The PC unit (R87): the pc after each instruction, and the link value. That nothing advances the pc is the spec's own
decision D5. -/
def Obligations.PcUnitComputesTheNextPc : Prop :=
  ∀ (i : Instr) (s t : State), exec i s = .next t →
    t.pc.toNat = (match i with
      | .br n z p offset9 =>
        if n = true ∧ s.flag = .N ∨ z = true ∧ s.flag = .Z ∨ p = true ∧ s.flag = .P
        then (s.pc.toNat + offset9.toNat) % 128 else s.pc.toNat
      | .jsr offset11 => (s.pc.toNat + offset11.toNat) % 128
      | .jsrr base => base.toNat
      | .jmp base => base.toNat
      | _ => s.pc.toNat) ∧
    (∀ offset11 : BitVec 11, i = .jsr offset11 → t.x[7] = s.pc) ∧
    ∀ base : BitVec 3, i = .jsrr base → t.x[7] = s.pc

/-- Only a taken BR, JSR, JSRR and JMP change the pc: no other instruction, no fetch, no host access, and no advance (R21).
The spec's own decision D5. -/
def Obligations.OnlyFourInstructionsChangeThePc : Prop :=
  ∀ (s t : State) (e : Edge) (rest : List Edge), s.inputs = e :: rest → e.rst = false → step s = .next t →
    t.pc ≠ s.pc → ∃ (a : Word) (u : State), e.req = some a ∧ u = s.hostAccess e.host ∧
      writesPc (decode (Memory.get u.mem (a.toNat % 128))) s.flag = true

/-- The flag-setting instructions are exactly ADD, AND, NOT, LD, LDR, LDI and LEA, and each sets the flag from the value it
left in its destination register (R86). -/
def Obligations.FlagIsSetByExactlyTheFlagSettingInstructions : Prop :=
  ∀ (i : Instr) (s t : State), exec i s = .next t →
    (∀ dr : RegIx, flagDest i = some dr → FlagDescribes t.flag t.x[dr]) ∧ (flagDest i = none → t.flag = s.flag)

/-- Only BR reads the flag (R25): any other instruction does the same whatever the flag was. -/
def Obligations.OnlyBranchReadsTheFlag : Prop :=
  ∀ (i : Instr) (s : State) (f : CondFlag), (∀ (n z p : Bool) (offset9 : BitVec 9), i ≠ .br n z p offset9) →
    ∃ t u : State, exec i s = .next t ∧ exec i { s with flag := f } = .next u ∧
      u.pc = t.pc ∧ u.x = t.x ∧ u.mem = t.mem ∧ u.out = t.out ∧ u.inputs = t.inputs

/-- Every instruction reads at most the registers R17 lists for it, and writes at most the one: two states that differ in
registers it does not read end alike, but for registers it does not write, which stay as each state had them. That JSRR, LDR,
STR and JMP read no register for their base field (R95) is the spec's own decision D7; the spec marks the closing sentence of
R17 as derived. -/
def Obligations.RegistersAreReadAndWrittenAsListed : Prop :=
  ∀ (i : Instr) (s : State) (y : Vector Word 8), (∀ r ∈ regSources i, y[r] = s.x[r]) →
    ∃ t u : State, exec i s = .next t ∧ exec i { s with x := y } = .next u ∧
      u.pc = t.pc ∧ u.flag = t.flag ∧ u.mem = t.mem ∧ u.out = t.out ∧ u.inputs = t.inputs ∧
      ∀ r : RegIx, if regDest i = some r then u.x[r] = t.x[r] else t.x[r] = s.x[r] ∧ u.x[r] = y[r]

/-- What each transaction writes at most (R89): a register, a memory word, the pc, the flag, as the table lists them.
The spec marks R89 as derived. -/
def Obligations.EachInstructionWritesWhatTheTableLists : Prop :=
  ∀ (i : Instr) (s t : State), exec i s = .next t →
    (∀ r : RegIx, regDest i ≠ some r → t.x[r] = s.x[r]) ∧
    (storeIndex i s = none → MemKept s t) ∧ (∀ a : Nat, storeIndex i s = some a → MemKeptBut a s t) ∧
    (writesPc i s.flag = false → t.pc = s.pc) ∧ (flagDest i = none → t.flag = s.flag) ∧ t.inputs = s.inputs

/-- Two NOTs of the same register restore every register (a corner case of R101). -/
def Obligations.NotTwiceRestoresTheRegister : Prop :=
  ∀ (r : RegIx) (s : State), ∃ t u : State, exec (.not r r) s = .next t ∧ exec (.not r r) t = .next u ∧
    u.x = s.x ∧ FlagDescribes u.flag s.x[r] ∧ u.pc = s.pc ∧ MemKept s u

/-- NOT, ADD #1, ADD subtracts modulo 65536 (R102, which the spec marks as derived here). -/
def Obligations.NotAddAddSubtracts : Prop :=
  ∀ (d a b : RegIx) (s : State), a ≠ b → ∃ t u v : State,
    exec (.not b b) s = .next t ∧ exec (.addImm b b 1) t = .next u ∧ exec (.addReg d a b) u = .next v ∧
    v.x[d].toNat = (s.x[a].toNat + 65536 - s.x[b].toNat) % 65536 ∧ FlagDescribes v.flag v.x[d] ∧ v.pc = s.pc

/-! ### Steps, the host, reset -/

/-- A transaction runs the instruction its fetch decodes: the host's access of the same edge first, then the word at the
request's address modulo 128, with the completion pulse on and the edge taken from the host's list (R74, R76, R78). The completion
pulse and the host's access are the spec's own decisions D9 and D11; the host's list is the model's choice, log entry 1. -/
def Obligations.TransactionRunsTheFetchedInstruction : Prop :=
  ∀ (s : State) (e : Edge) (rest : List Edge) (address : Word),
    s.inputs = e :: rest → e.rst = false → e.req = some address →
    ∃ u : State, step s = exec (decode (Memory.get u.mem (address.toNat % 128))) u ∧
      u.pc = s.pc ∧ u.flag = s.flag ∧ u.x = s.x ∧ u.inputs = rest ∧ u.out = ⟨true, none⟩ ∧
      ∀ b : Nat, Memory.get u.mem b = (match e.host with
        | some (.load a v) => if b = a.toNat % 128 then v else Memory.get s.mem b
        | _ => Memory.get s.mem b)

/-- Only the low seven bits of the fetch address matter (R78). -/
def Obligations.FetchAddressesCongruentModulo128AreOne : Prop :=
  ∀ (s : State) (a b : Word) (rest : List Edge), a.toNat % 128 = b.toNat % 128 →
    step { s with inputs := Edge.exec a :: rest } = step { s with inputs := Edge.exec b :: rest }

/-- A host access without a request: a load replaces one word, a read and no access none; `pc`, `flag` and the registers
stay, and nothing pulses (R76; the host port is the spec's own decision D11). -/
def Obligations.HostAccessWritesAtMostOneWord : Prop :=
  ∀ (s : State) (h : Option HostAccess) (rest : List Edge), s.inputs = ⟨false, h, none⟩ :: rest →
    ∃ t : State, step s = .next t ∧ t.pc = s.pc ∧ t.flag = s.flag ∧ t.x = s.x ∧ t.out = ⟨false, none⟩ ∧
      t.inputs = rest ∧ ∀ b : Nat, Memory.get t.mem b = (match h with
        | some (.load a v) => if b = a.toNat % 128 then v else Memory.get s.mem b
        | _ => Memory.get s.mem b)

/-- A load and an accepted request at one edge do what the load and then the request do at two (R76, R116; the spec's own decision
D11). -/
def Obligations.LoadAtTheSameEdgeGoesFirst : Prop :=
  ∀ (s : State) (a v address : Word) (rest : List Edge),
    Sys2Proof.core.run 1 { s with inputs := Edge.loadExec a v address :: rest } =
      Sys2Proof.core.run 2 { s with inputs := Edge.load a v :: Edge.exec address :: rest }

/-- Reset wins at its edge, from any state and whatever else the host presents (R126, R116; the spec's own decision D19). -/
def Obligations.ResetEdgeTakesTheResetState : Prop :=
  ∀ (s : State) (h : Option HostAccess) (q : Option Word) (rest : List Edge), s.inputs = ⟨true, h, q⟩ :: rest →
    ∃ t : State, step s = .next t ∧ t.pc = 0 ∧ t.flag = .Z ∧ (∀ r : RegIx, t.x[r] = 0) ∧
      (∀ a : Nat, Memory.get t.mem a = 0) ∧ t.out = ⟨false, none⟩ ∧ t.inputs = rest

/-- With no edge to come the block holds its state (R125; the spec's own decision D21). -/
def Obligations.IdleBlockHoldsItsState : Prop :=
  ∀ s : State, s.inputs = [] → ∃ t : State, step s = .next t ∧ CellKept s t ∧ t.out = ⟨false, none⟩ ∧ t.inputs = []

/-- The reset state (R31). -/
def Obligations.ResetLeavesEverythingZero : Prop :=
  State.reset.pc = 0 ∧ State.reset.flag = .Z ∧ (∀ r : RegIx, State.reset.x[r] = 0) ∧
    ∀ a : Nat, Memory.get State.reset.mem a = 0

/-- The output pulses are pins and not storage: no step depends on them (R30, R88). That the state holds
them at all is the model's choice, log entry 1. -/
def Obligations.NoStepReadsTheOutputPulses : Prop :=
  ∀ (s : State) (o : Outputs), step { s with out := o } = step s

/-- The output ports show the state (R24, R75, R76; the ports are the spec's own decisions D8 and D9): `obs_pc` is the pc, whose
bits 15 to 7 are 0 in every state that meets the invariant, `obs_flag` is one-hot, `obs_x0` to `obs_x7` are the registers,
`host_rdata` is the addressed word, and `rsp_done`, `ext_valid`, `ext_op` and `ext_word` are the last step's pulses, which the
model holds in the state by its own choice, log entry 1. `req_ready` is 1: every state of the model lies between
transactions, log entry 4. -/
def Obligations.PortsShowTheState : Prop :=
  ∀ (s : State) (a : Word),
    (s.ports a).obsPc = s.pc ∧ (s.Inv → (s.ports a).obsPc.toNat < 128) ∧
    ((s.ports a).obsFlag = 0b100 ↔ s.flag = .N) ∧ ((s.ports a).obsFlag = 0b010 ↔ s.flag = .Z) ∧
    ((s.ports a).obsFlag = 0b001 ↔ s.flag = .P) ∧ (s.ports a).obsX = s.x ∧
    (s.ports a).hostRdata = Memory.get s.mem (a.toNat % 128) ∧
    (s.ports a).rspDone = s.out.rspDone ∧ (s.ports a).ext = s.out.hook ∧
    ((s.ports a).extValid = true ↔ ∃ h : HookPulse, s.out.hook = some h) ∧ (s.ports a).reqReady = true

/-- A word stored by ST is the word a later transaction fetches, and the storing transaction itself ran the word it had
fetched, even where it stored over it (R49; the spec's own decision D16). -/
def Obligations.LaterFetchSeesTheStoredWord : Prop :=
  ∀ (s : State) (a b : Word) (rest : List Edge) (sr : RegIx) (offset9 : BitVec 9),
    s.inputs = Edge.exec a :: Edge.exec b :: rest → decode (Memory.get s.mem (a.toNat % 128)) = .st sr offset9 →
    b.toNat % 128 = (s.pc.toNat + offset9.toNat) % 128 →
    ∃ t u : State, step s = .next t ∧ Memory.get t.mem (b.toNat % 128) = s.x[sr] ∧
      step t = exec (decode s.x[sr]) u ∧ u.pc = s.pc ∧ u.flag = s.flag ∧ u.x = s.x ∧ u.mem = t.mem ∧ u.inputs = rest

/-! ### Invariant and safety -/

/-- Every step keeps the invariant: the pc in 0..127 (R18) and the memory in its canonical form with indices in 0..127.
The canonical form is the model's choice, log entry 2. -/
def Obligations.EveryStepKeepsThePcAndMemoryInvariant : Prop :=
  ∀ s t : State, s.Inv → step s = .next t → t.Inv

/-- The reset state meets the invariant: its pc is in 0..127 (R31, R32), and its memory is in the canonical form, which is the
model's choice, log entry 2. -/
def Obligations.ResetMeetsThePcAndMemoryInvariant : Prop := State.reset.Inv

/-- No instruction and no step ever faults or refuses: each answers a next state (R90). -/
def Obligations.EveryInstructionAndStepAnswersNext : Prop :=
  (∀ (i : Instr) (s : State), ∃ t : State, exec i s = .next t) ∧ ∀ s : State, ∃ t : State, step s = .next t

/-- Every run is safe: from any state that meets the invariant, whatever the host does and for however long, the machine
goes on and the invariant holds. The invariant's canonical form of memory is the model's choice, log entry 2; a run longer
than the host's list of edges goes on by idle steps, log entry 1; that a run is the host's steps and nothing halts it (R134) is
the spec's own decision D24. -/
def Obligations.EveryRunGoesOnSafely : Prop :=
  ∀ (k : Nat) (s : State), s.Inv → SafeFor k s
end

