-- ==== Sys2Proof/Laws/Decode.lean ====
section
/-! SUPPORT. The decoder and the encoder bit by bit. -/

namespace Sys2Proof

/-- A bit of a placed field. -/
@[simp] theorem getElem_place {n : Nat} (lo : Nat) (v : BitVec n) (i : Nat) (hi : i < 16) :
    (place lo v)[i] = (decide (lo ≤ i) && v.getLsbD (i - lo)) := by
  simp only [place, BitVec.getElem_shiftLeft]
  by_cases h : i < lo
  · simp [h]
  · simp only [h, BitVec.getElem_setWidth]
    simp [Nat.le_of_not_lt h]

/-- The four opcode bits of a word whose opcode is known (30_encoding.md R53). -/
theorem opcodeOf_eq_iff (w : Word) (o : Opcode) : opcodeOf w = o ↔ opcodeOfBits w[15] w[14] w[13] w[12] = o := Iff.rfl

/-- A register index and its 3-bit field carry the same number. -/
@[simp] theorem regBits_toNat (r : RegIx) : (regBits r).toNat = r.val := rfl

theorem fieldDr_val (w : Word) : (fieldDr w).val = w.toNat / 512 % 8 := by
  show (w.extractLsb' 9 3).toNat = _
  simp [Nat.shiftRight_eq_div_pow]

theorem fieldSr1_val (w : Word) : (fieldSr1 w).val = w.toNat / 64 % 8 := by
  show (w.extractLsb' 6 3).toNat = _
  simp [Nat.shiftRight_eq_div_pow]

theorem fieldSr2_val (w : Word) : (fieldSr2 w).val = w.toNat % 8 := by
  show (w.extractLsb' 0 3).toNat = _
  simp

theorem fieldBase_toNat (w : Word) : (fieldBase w).toNat = w.toNat / 64 % 8 := by
  simp [fieldBase, Nat.shiftRight_eq_div_pow]

theorem fieldImm5_toNat (w : Word) : (fieldImm5 w).toNat = w.toNat % 32 := by simp [fieldImm5]
theorem fieldOffset6_toNat (w : Word) : (fieldOffset6 w).toNat = w.toNat % 64 := by simp [fieldOffset6]
theorem fieldOffset9_toNat (w : Word) : (fieldOffset9 w).toNat = w.toNat % 512 := by simp [fieldOffset9]
theorem fieldOffset11_toNat (w : Word) : (fieldOffset11 w).toNat = w.toNat % 2048 := by simp [fieldOffset11]
theorem fieldPayload_toNat (w : Word) : (fieldPayload w).toNat = w.toNat % 4096 := by simp [fieldPayload]

end Sys2Proof
end

