-- ==== Sys2Proof/Laws/Memory.lean ====
section
/-! SUPPORT. The memory: what a read sees after a write, and that every operation keeps the canonical form. -/

namespace Sys2Proof.Machine

@[simp] theorem Memory.get_nil (a : Nat) : Memory.get [] a = 0 := rfl

theorem Memory.get_cons (k : Nat) (w : Word) (m : Memory) (a : Nat) :
    Memory.get ((k, w) :: m) a = if k = a then w else Memory.get m a := rfl

theorem Memory.get_erase (m : Memory) (a b : Nat) :
    Memory.get (Memory.erase m a) b = if b = a then 0 else Memory.get m b := by
  induction m with
  | nil => simp [Memory.erase]
  | cons c m ih =>
    obtain ⟨k, w⟩ := c
    have ih' : Memory.get (m.filter fun c => c.1 ≠ a) b = if b = a then 0 else Memory.get m b := ih
    by_cases hk : k = a
    · rw [Memory.erase, List.filter_cons_of_neg (by simp [hk]), ih', Memory.get_cons]
      by_cases hb : b = a
      · simp [hb]
      · simp [hb, hk, Ne.symm hb]
    · rw [Memory.erase, List.filter_cons_of_pos (by simp [hk]), Memory.get_cons, ih', Memory.get_cons]
      by_cases hb : b = a
      · simp [hb, hk]
      · simp [hb]

theorem Memory.get_insert (m : Memory) (a b : Nat) (v : Word) :
    Memory.get (Memory.insert m a v) b = if b = a then v else Memory.get m b := by
  induction m with
  | nil => simp [Memory.insert, Memory.get_cons, eq_comm]
  | cons c m ih =>
    obtain ⟨k, w⟩ := c
    unfold Memory.insert
    by_cases h1 : a < k
    · simp [h1, Memory.get_cons, eq_comm]
    · by_cases h2 : k = a
      · subst h2
        rw [if_neg h1, if_pos rfl, Memory.get_cons, Memory.get_cons]
        by_cases hb : b = k
        · simp [hb]
        · simp [hb, Ne.symm hb]
      · simp only [h1, h2, if_false, Memory.get_cons, ih]
        by_cases hb : b = a
        · simp [hb, h2]
        · simp [hb]

/-- What a read sees after a write, on any list: the word written at that index, the old word elsewhere. -/
theorem Memory.get_set (m : Memory) (a b : Nat) (v : Word) :
    Memory.get (Memory.set m a v) b = if b = a then v else Memory.get m b := by
  unfold Memory.set
  by_cases hv : v = Memory.unlisted
  · simp only [hv, if_true, Memory.get_erase]
    rfl
  · simp only [hv, if_false, Memory.get_insert]

@[simp] theorem Memory.get_set_same (m : Memory) (a : Nat) (v : Word) : Memory.get (Memory.set m a v) a = v := by
  simp [Memory.get_set]

theorem Memory.get_set_other (m : Memory) {a b : Nat} (h : b ≠ a) (v : Word) :
    Memory.get (Memory.set m a v) b = Memory.get m b := by
  simp [Memory.get_set, h]

/-! ### The canonical form -/

theorem Memory.wf_nil : Memory.wf [] := by simp [Memory.wf]

theorem Memory.erase_wf {m : Memory} (h : Memory.wf m) (a : Nat) : Memory.wf (Memory.erase m a) :=
  ⟨h.1.filter _, fun c hc => h.2 c (List.mem_of_mem_filter hc)⟩

theorem Memory.mem_insert {m : Memory} {a : Nat} {v : Word} {c : Nat × Word} (h : c ∈ Memory.insert m a v) :
    c = (a, v) ∨ c ∈ m := by
  induction m with
  | nil => simpa [Memory.insert] using h
  | cons d m ih =>
    obtain ⟨k, w⟩ := d
    unfold Memory.insert at h
    split at h
    · simpa using h
    · split at h
      · rcases List.mem_cons.mp h with h | h
        · exact .inl h
        · exact .inr (List.mem_cons_of_mem _ h)
      · rcases List.mem_cons.mp h with h | h
        · exact .inr (h ▸ List.mem_cons_self)
        · exact (ih h).imp id (List.mem_cons_of_mem _)

theorem Memory.insert_pairwise {m : Memory} (h : m.Pairwise fun c d => c.1 < d.1) (a : Nat) (v : Word) :
    (Memory.insert m a v).Pairwise fun c d => c.1 < d.1 := by
  induction m with
  | nil => simp [Memory.insert]
  | cons d m ih =>
    obtain ⟨k, w⟩ := d
    obtain ⟨hk, hm⟩ := List.pairwise_cons.mp h
    unfold Memory.insert
    split
    · rename_i hak
      refine List.pairwise_cons.mpr ⟨fun c hc => ?_, h⟩
      rcases List.mem_cons.mp hc with rfl | hc
      · exact hak
      · exact hak.trans (hk c hc)
    · split
      · rename_i hka
        subst hka
        exact List.pairwise_cons.mpr ⟨hk, hm⟩
      · refine List.pairwise_cons.mpr ⟨fun c hc => ?_, ih hm⟩
        rcases Memory.mem_insert hc with rfl | hc
        · simp only
          omega
        · exact hk c hc

theorem Memory.insert_wf {m : Memory} (h : Memory.wf m) {a : Nat} {v : Word} (ha : a < Config.memorySize)
    (hv : v ≠ Memory.unlisted) : Memory.wf (Memory.insert m a v) := by
  refine ⟨Memory.insert_pairwise h.1 a v, fun c hc => ?_⟩
  rcases Memory.mem_insert hc with rfl | hc
  · exact ⟨ha, hv⟩
  · exact h.2 c hc

/-- Every write keeps the canonical form. -/
theorem Memory.set_wf {m : Memory} (h : Memory.wf m) {a : Nat} (ha : a < Config.memorySize) (v : Word) :
    Memory.wf (Memory.set m a v) := by
  unfold Memory.set
  split
  · exact Memory.erase_wf h a
  · exact Memory.insert_wf h ha ‹_›

/-! ### The translator and the accesses -/

@[simp] theorem tr_toNat (a : Word) : (tr a).toNat = a.toNat % 128 := by
  have := Nat.mod_lt a.toNat (show 0 < 128 by decide)
  simp only [tr, Config.memorySize_eq, BitVec.toNat_ofNat]
  omega

theorem tr_lt (a : Word) : (tr a).toNat < Config.memorySize := by
  rw [tr_toNat, Config.memorySize_eq]
  omega

theorem State.memRead_eq (s : State) (a : Word) : s.memRead a = Memory.get s.mem (a.toNat % 128) := by
  rw [State.memRead, tr_toNat]

/-- A store's whole effect on memory, read one word at a time. -/
theorem State.memWrite_get (s : State) (a v : Word) (b : Nat) :
    Memory.get (s.memWrite a v).mem b = if b = a.toNat % 128 then v else Memory.get s.mem b := by
  rw [State.memWrite, Memory.get_set, tr_toNat]

theorem State.memWrite_wf {s : State} (h : Memory.wf s.mem) (a v : Word) : Memory.wf (s.memWrite a v).mem :=
  Memory.set_wf h (tr_lt a) v

end Sys2Proof.Machine
end

