-- ==== Sys2Proof/Laws/State.lean ====
section
/-! SUPPORT. One lemma for each field of the state and each update of it, so that no proof unfolds a record update. -/

namespace Sys2Proof.Machine

@[simp] theorem State.setX_pc (s : State) (i : RegIx) (v : Word) : (s.setX i v).pc = s.pc := rfl
@[simp] theorem State.setX_flag (s : State) (i : RegIx) (v : Word) : (s.setX i v).flag = s.flag := rfl
@[simp] theorem State.setX_x (s : State) (i : RegIx) (v : Word) : (s.setX i v).x = s.x.set i v := rfl
@[simp] theorem State.setX_mem (s : State) (i : RegIx) (v : Word) : (s.setX i v).mem = s.mem := rfl
@[simp] theorem State.setX_out (s : State) (i : RegIx) (v : Word) : (s.setX i v).out = s.out := rfl
@[simp] theorem State.setX_inputs (s : State) (i : RegIx) (v : Word) : (s.setX i v).inputs = s.inputs := rfl

@[simp] theorem State.setPc_pc (s : State) (t : Word) : (s.setPc t).pc = tr t := rfl
@[simp] theorem State.setPc_flag (s : State) (t : Word) : (s.setPc t).flag = s.flag := rfl
@[simp] theorem State.setPc_x (s : State) (t : Word) : (s.setPc t).x = s.x := rfl
@[simp] theorem State.setPc_mem (s : State) (t : Word) : (s.setPc t).mem = s.mem := rfl
@[simp] theorem State.setPc_out (s : State) (t : Word) : (s.setPc t).out = s.out := rfl
@[simp] theorem State.setPc_inputs (s : State) (t : Word) : (s.setPc t).inputs = s.inputs := rfl

@[simp] theorem State.setFlag_pc (s : State) (v : Word) : (s.setFlag v).pc = s.pc := rfl
@[simp] theorem State.setFlag_flag (s : State) (v : Word) : (s.setFlag v).flag = signOf v := rfl
@[simp] theorem State.setFlag_x (s : State) (v : Word) : (s.setFlag v).x = s.x := rfl
@[simp] theorem State.setFlag_mem (s : State) (v : Word) : (s.setFlag v).mem = s.mem := rfl
@[simp] theorem State.setFlag_out (s : State) (v : Word) : (s.setFlag v).out = s.out := rfl
@[simp] theorem State.setFlag_inputs (s : State) (v : Word) : (s.setFlag v).inputs = s.inputs := rfl

@[simp] theorem State.memWrite_pc (s : State) (a v : Word) : (s.memWrite a v).pc = s.pc := rfl
@[simp] theorem State.memWrite_flag (s : State) (a v : Word) : (s.memWrite a v).flag = s.flag := rfl
@[simp] theorem State.memWrite_x (s : State) (a v : Word) : (s.memWrite a v).x = s.x := rfl
@[simp] theorem State.memWrite_mem (s : State) (a v : Word) : (s.memWrite a v).mem = Memory.set s.mem (tr a).toNat v := rfl
@[simp] theorem State.memWrite_out (s : State) (a v : Word) : (s.memWrite a v).out = s.out := rfl
@[simp] theorem State.memWrite_inputs (s : State) (a v : Word) : (s.memWrite a v).inputs = s.inputs := rfl

@[simp] theorem State.pulseHook_pc (s : State) (op : BitVec 4) (p : BitVec 12) : (s.pulseHook op p).pc = s.pc := rfl
@[simp] theorem State.pulseHook_flag (s : State) (op : BitVec 4) (p : BitVec 12) : (s.pulseHook op p).flag = s.flag := rfl
@[simp] theorem State.pulseHook_x (s : State) (op : BitVec 4) (p : BitVec 12) : (s.pulseHook op p).x = s.x := rfl
@[simp] theorem State.pulseHook_mem (s : State) (op : BitVec 4) (p : BitVec 12) : (s.pulseHook op p).mem = s.mem := rfl
@[simp] theorem State.pulseHook_out (s : State) (op : BitVec 4) (p : BitVec 12) : (s.pulseHook op p).out = { s.out with hook := some ⟨op, op ++ p⟩ } := rfl
@[simp] theorem State.pulseHook_inputs (s : State) (op : BitVec 4) (p : BitVec 12) : (s.pulseHook op p).inputs = s.inputs := rfl

@[simp] theorem State.idle_pc (s : State) : (s.idle).pc = s.pc := rfl
@[simp] theorem State.idle_flag (s : State) : (s.idle).flag = s.flag := rfl
@[simp] theorem State.idle_x (s : State) : (s.idle).x = s.x := rfl
@[simp] theorem State.idle_mem (s : State) : (s.idle).mem = s.mem := rfl
@[simp] theorem State.idle_out (s : State) : (s.idle).out = .quiet := rfl
@[simp] theorem State.idle_inputs (s : State) : (s.idle).inputs = s.inputs := rfl

@[simp] theorem State.takeEdge_pc (s : State) (r : List Edge) : (s.takeEdge r).pc = s.pc := rfl
@[simp] theorem State.takeEdge_flag (s : State) (r : List Edge) : (s.takeEdge r).flag = s.flag := rfl
@[simp] theorem State.takeEdge_x (s : State) (r : List Edge) : (s.takeEdge r).x = s.x := rfl
@[simp] theorem State.takeEdge_mem (s : State) (r : List Edge) : (s.takeEdge r).mem = s.mem := rfl
@[simp] theorem State.takeEdge_out (s : State) (r : List Edge) : (s.takeEdge r).out = .quiet := rfl
@[simp] theorem State.takeEdge_inputs (s : State) (r : List Edge) : (s.takeEdge r).inputs = r := rfl

@[simp] theorem State.complete_pc (s : State) : (s.complete).pc = s.pc := rfl
@[simp] theorem State.complete_flag (s : State) : (s.complete).flag = s.flag := rfl
@[simp] theorem State.complete_x (s : State) : (s.complete).x = s.x := rfl
@[simp] theorem State.complete_mem (s : State) : (s.complete).mem = s.mem := rfl
@[simp] theorem State.complete_out (s : State) : (s.complete).out = { s.out with rspDone := true } := rfl
@[simp] theorem State.complete_inputs (s : State) : (s.complete).inputs = s.inputs := rfl

@[simp] theorem State.resetBlock_pc (s : State) : (s.resetBlock).pc = 0 := rfl
@[simp] theorem State.resetBlock_flag (s : State) : (s.resetBlock).flag = .Z := rfl
@[simp] theorem State.resetBlock_x (s : State) : (s.resetBlock).x = Vector.replicate 8 0 := rfl
@[simp] theorem State.resetBlock_mem (s : State) : (s.resetBlock).mem = [] := rfl
@[simp] theorem State.resetBlock_out (s : State) : (s.resetBlock).out = .quiet := rfl
@[simp] theorem State.resetBlock_inputs (s : State) : (s.resetBlock).inputs = s.inputs := rfl

@[simp] theorem State.resetWith_pc (es : List Edge) : (State.resetWith es).pc = 0 := rfl
@[simp] theorem State.resetWith_flag (es : List Edge) : (State.resetWith es).flag = .Z := rfl
@[simp] theorem State.resetWith_x (es : List Edge) : (State.resetWith es).x = Vector.replicate 8 0 := rfl
@[simp] theorem State.resetWith_mem (es : List Edge) : (State.resetWith es).mem = [] := rfl
@[simp] theorem State.resetWith_out (es : List Edge) : (State.resetWith es).out = .quiet := rfl
@[simp] theorem State.resetWith_inputs (es : List Edge) : (State.resetWith es).inputs = es := rfl

/-! The destination write: the register, and the flag of the value it now holds. -/

@[simp] theorem State.getX_setX_same (s : State) (i : RegIx) (v : Word) : (s.setX i v).getX i = v := by
  simp [State.getX, State.setX]

theorem State.getX_setX_other (s : State) {i j : RegIx} (h : j ≠ i) (v : Word) : (s.setX i v).getX j = s.getX j := by
  have : (i : Nat) ≠ (j : Nat) := fun e => h (Fin.ext e.symm)
  simp [State.getX, State.setX, this]

@[simp] theorem State.writeDest_pc (s : State) (dr : RegIx) (v : Word) : (s.writeDest dr v).pc = s.pc := rfl
@[simp] theorem State.writeDest_flag (s : State) (dr : RegIx) (v : Word) : (s.writeDest dr v).flag = signOf v := by
  simp [State.writeDest]
@[simp] theorem State.writeDest_x (s : State) (dr : RegIx) (v : Word) : (s.writeDest dr v).x = s.x.set dr v := rfl
@[simp] theorem State.writeDest_mem (s : State) (dr : RegIx) (v : Word) : (s.writeDest dr v).mem = s.mem := rfl
@[simp] theorem State.writeDest_out (s : State) (dr : RegIx) (v : Word) : (s.writeDest dr v).out = s.out := rfl
@[simp] theorem State.writeDest_inputs (s : State) (dr : RegIx) (v : Word) : (s.writeDest dr v).inputs = s.inputs := rfl

/-! A host access changes memory alone. -/

@[simp] theorem State.hostAccess_pc (s : State) (h : Option HostAccess) : (s.hostAccess h).pc = s.pc := by
  rcases h with _ | _ | _ <;> rfl
@[simp] theorem State.hostAccess_flag (s : State) (h : Option HostAccess) : (s.hostAccess h).flag = s.flag := by
  rcases h with _ | _ | _ <;> rfl
@[simp] theorem State.hostAccess_x (s : State) (h : Option HostAccess) : (s.hostAccess h).x = s.x := by
  rcases h with _ | _ | _ <;> rfl
@[simp] theorem State.hostAccess_out (s : State) (h : Option HostAccess) : (s.hostAccess h).out = s.out := by
  rcases h with _ | _ | _ <;> rfl
@[simp] theorem State.hostAccess_inputs (s : State) (h : Option HostAccess) : (s.hostAccess h).inputs = s.inputs := by
  rcases h with _ | _ | _ <;> rfl

theorem State.ext_fields {s t : State} (h1 : s.pc = t.pc) (h2 : s.flag = t.flag) (h3 : s.x = t.x) (h4 : s.mem = t.mem)
    (h5 : s.out = t.out) (h6 : s.inputs = t.inputs) : s = t := by
  cases s
  cases t
  simp_all

end Sys2Proof.Machine
end

