-- ==== Sys2Proof/Laws/Operands.lean ====
section
/-! SUPPORT. What the address forms, the ALU and the flag tracker compute, as numbers. -/

namespace Sys2Proof.Machine

theorem zext_toNat {n : Nat} (h : n ≤ 16) (v : BitVec n) : (zext v).toNat = v.toNat := by
  have := v.isLt
  have : 2 ^ n ≤ 2 ^ 16 := Nat.pow_le_pow_right (by decide) h
  rw [zext, BitVec.toNat_setWidth, Nat.mod_eq_of_lt (by omega)]

/-- A PC-relative address after translation (20_memory.md R37). -/
theorem tr_pcRel {n : Nat} (h : n ≤ 16) (pc : Word) (off : BitVec n) :
    (tr (pcRel pc off)).toNat = (pc.toNat + off.toNat) % 128 := by
  rw [tr_toNat, pcRel, add16, BitVec.toNat_add, zext_toNat h]
  omega

/-- A base-field-relative address after translation: it is never past 70 (43_load_store.md R105). -/
theorem tr_baseRel (base : BitVec 3) (off : BitVec 6) : (tr (baseRel base off)).toNat = base.toNat + off.toNat := by
  have hb := base.isLt
  have ho := off.isLt
  rw [tr_toNat, baseRel, add16, BitVec.toNat_add, zext_toNat (by decide), zext_toNat (by decide)]
  omega

/-- A base-field pc target after translation is the field itself (40_engine.md R87). -/
theorem tr_zext_base (base : BitVec 3) : (tr (zext base)).toNat = base.toNat := by
  have hb := base.isLt
  rw [tr_toNat, zext_toNat (by decide)]
  omega

theorem effective_toNat (a b : Word) : (effective a b).toNat = (a.toNat + b.toNat) % 128 := by
  rw [effective, tr_toNat, add16, BitVec.toNat_add]
  omega

/-- The flag tracker's value describes the value it was given (40_engine.md R85). -/
theorem signOf_describes (v : Word) : FlagDescribes (signOf v) v := by
  unfold signOf
  have hm : v[15] = v.msb := by rw [BitVec.msb_eq_getLsbD_last]; rfl
  by_cases h15 : v.msb = true
  · rw [hm, if_pos h15]
    exact BitVec.toInt_neg_of_msb_true h15
  · have hn : 0 ≤ v.toInt := BitVec.toInt_nonneg_of_msb_false (by simpa using h15)
    by_cases h0 : v = 0
    · subst h0
      rfl
    · rw [hm, if_neg h15, if_neg h0]
      have h0' : v.toInt ≠ 0 := fun e => h0 (BitVec.eq_of_toInt_eq (by simpa using e))
      show 0 < v.toInt
      omega

theorem State.writeDest_getX_same (s : State) (dr : RegIx) (v : Word) : (s.writeDest dr v).x[dr] = v := by
  simp

/-- All that writing a destination register does. -/
theorem State.writeDest_spec (s : State) (dr : RegIx) (v : Word) :
    (s.writeDest dr v).x[dr] = v ∧ FlagDescribes (s.writeDest dr v).flag v ∧ RegsKeptBut dr s (s.writeDest dr v) ∧
      (s.writeDest dr v).pc = s.pc ∧ (s.writeDest dr v).mem = s.mem ∧ PortsKept s (s.writeDest dr v) := by
  refine ⟨by simp, by simpa using signOf_describes v, fun i hi => ?_, rfl, rfl, rfl, rfl⟩
  have : (dr : Nat) ≠ (i : Nat) := fun e => hi (Fin.ext e.symm)
  simp [this]

/-- All that linking and jumping do (41_control.md R92, R93). -/
theorem State.link_spec (s : State) (t : Word) :
    let u := (s.setX Config.linkReg s.pc).setPc t
    u.x[Config.linkReg] = s.pc ∧ u.pc = tr t ∧ RegsKeptBut Config.linkReg s u ∧ u.flag = s.flag ∧ u.mem = s.mem ∧
      PortsKept s u := by
  refine ⟨by simp, rfl, fun i hi => ?_, rfl, rfl, rfl, rfl⟩
  have : (Config.linkReg : Nat) ≠ (i : Nat) := fun e => hi (Fin.ext e.symm)
  simp [this]

end Sys2Proof.Machine
end

