-- ==== Sys2Proof/Laws/PerInstr.lean ====
section
/-! SUPPORT. Statements about every instruction as syntax, one lemma for each constructor. -/

namespace Sys2Proof.Laws.EncodesItsRow

/-- The word the encoder writes for an instruction belongs to the instruction's row of the opcode map
(30_encoding.md R73). -/
def Statement (i : Instr) : Prop := encode i &&& (mapRow i).mask = (mapRow i).pattern

theorem br (n z p : Bool) (o : BitVec 9) : Statement (.br n z p o) := by
  apply BitVec.eq_of_getElem_eq
  intro i hi
  interval_cases i <;> simp [encode, mapRow]

theorem addReg (a b c : RegIx) : Statement (.addReg a b c) := by
  apply BitVec.eq_of_getElem_eq
  intro i hi
  interval_cases i <;> simp [encode, mapRow]

theorem addImm (a b : RegIx) (o : BitVec 5) : Statement (.addImm a b o) := by
  apply BitVec.eq_of_getElem_eq
  intro i hi
  interval_cases i <;> simp [encode, mapRow]

theorem ld (a : RegIx) (o : BitVec 9) : Statement (.ld a o) := by
  apply BitVec.eq_of_getElem_eq
  intro i hi
  interval_cases i <;> simp [encode, mapRow]

theorem st (a : RegIx) (o : BitVec 9) : Statement (.st a o) := by
  apply BitVec.eq_of_getElem_eq
  intro i hi
  interval_cases i <;> simp [encode, mapRow]

theorem jsrr (b : BitVec 3) : Statement (.jsrr b) := by
  apply BitVec.eq_of_getElem_eq
  intro i hi
  interval_cases i <;> simp [encode, mapRow]

theorem jsr (o : BitVec 11) : Statement (.jsr o) := by
  apply BitVec.eq_of_getElem_eq
  intro i hi
  interval_cases i <;> simp [encode, mapRow]

theorem andReg (a b c : RegIx) : Statement (.andReg a b c) := by
  apply BitVec.eq_of_getElem_eq
  intro i hi
  interval_cases i <;> simp [encode, mapRow]

theorem andImm (a b : RegIx) (o : BitVec 5) : Statement (.andImm a b o) := by
  apply BitVec.eq_of_getElem_eq
  intro i hi
  interval_cases i <;> simp [encode, mapRow]

theorem ldr (a : RegIx) (b : BitVec 3) (o : BitVec 6) : Statement (.ldr a b o) := by
  apply BitVec.eq_of_getElem_eq
  intro i hi
  interval_cases i <;> simp [encode, mapRow]

theorem str (a : RegIx) (b : BitVec 3) (o : BitVec 6) : Statement (.str a b o) := by
  apply BitVec.eq_of_getElem_eq
  intro i hi
  interval_cases i <;> simp [encode, mapRow]

theorem lookup (q : BitVec 12) : Statement (.lookup q) := by
  apply BitVec.eq_of_getElem_eq
  intro i hi
  interval_cases i <;> simp [encode, mapRow]

theorem not (a b : RegIx) : Statement (.not a b) := by
  apply BitVec.eq_of_getElem_eq
  intro i hi
  interval_cases i <;> simp [encode, mapRow]

theorem ldi (a : RegIx) (o : BitVec 9) : Statement (.ldi a o) := by
  apply BitVec.eq_of_getElem_eq
  intro i hi
  interval_cases i <;> simp [encode, mapRow]

theorem sti (a : RegIx) (o : BitVec 9) : Statement (.sti a o) := by
  apply BitVec.eq_of_getElem_eq
  intro i hi
  interval_cases i <;> simp [encode, mapRow]

theorem jmp (b : BitVec 3) : Statement (.jmp b) := by
  apply BitVec.eq_of_getElem_eq
  intro i hi
  interval_cases i <;> simp [encode, mapRow]

theorem bset (q : BitVec 12) : Statement (.bset q) := by
  apply BitVec.eq_of_getElem_eq
  intro i hi
  interval_cases i <;> simp [encode, mapRow]

theorem lea (a : RegIx) (o : BitVec 9) : Statement (.lea a o) := by
  apply BitVec.eq_of_getElem_eq
  intro i hi
  interval_cases i <;> simp [encode, mapRow]

theorem sendacc (q : BitVec 12) : Statement (.sendacc q) := by
  apply BitVec.eq_of_getElem_eq
  intro i hi
  interval_cases i <;> simp [encode, mapRow]

end Sys2Proof.Laws.EncodesItsRow
end

