-- ==== Sys2Proof/Laws/Step.lean ====
section
/-! SUPPORT. All that one step and one instruction can do, said once. -/

namespace Sys2Proof.Machine

/-- All that one step can do: idle, reset, an edge without a request, or a transaction. -/
theorem step_cases {s t : State} (h : step s = .next t) :
    (s.inputs = [] ∧ t = s.idle) ∨
    (∃ e rest, s.inputs = e :: rest ∧ e.rst = true ∧ t = (s.takeEdge rest).resetBlock) ∨
    (∃ e rest, s.inputs = e :: rest ∧ e.rst = false ∧ e.req = none ∧ t = (s.takeEdge rest).hostAccess e.host) ∨
    (∃ e rest a, s.inputs = e :: rest ∧ e.rst = false ∧ e.req = some a ∧
      exec (decode (((s.takeEdge rest).hostAccess e.host).fetch a)) ((s.takeEdge rest).hostAccess e.host).complete
        = .next t) := by
  unfold step at h
  split at h
  · exact .inl ⟨‹_›, by simpa using h.symm⟩
  · rename_i e rest hi
    split at h
    · exact .inr (.inl ⟨e, rest, hi, ‹_›, by simpa using h.symm⟩)
    · rename_i hr
      have hr : e.rst = false := by simpa using hr
      simp only at h
      split at h
      · exact .inr (.inr (.inl ⟨e, rest, hi, hr, ‹_›, by simpa using h.symm⟩))
      · exact .inr (.inr (.inr ⟨e, rest, _, hi, hr, ‹_›, h⟩))

/-- All that one instruction can do to the state: nothing, a destination write, a store, a pc write, a link and a pc write,
or a pulse of the hook. -/
theorem exec_cases {i : Instr} {s t : State} (h : exec i s = .next t) :
    t = s ∨ (∃ dr v, t = s.writeDest dr v) ∨ (∃ a v, t = s.memWrite a v) ∨ (∃ u, t = s.setPc u) ∨
      (∃ u, t = (s.setX Config.linkReg s.pc).setPc u) ∨ (∃ op p, t = s.pulseHook op p) := by
  have inj {a b : State} (h : (Host.Outcome.next a : Result) = .next b) : b = a := by
    injection h with h
    exact h.symm
  cases i with
  | br n z p o =>
    simp only [exec, execBr] at h
    split at h
    · exact .inr (.inr (.inr (.inl ⟨_, inj h⟩)))
    · exact .inl (inj h)
  | addReg | addImm | andReg | andImm | not | ld | ldr | ldi | lea => exact .inr (.inl ⟨_, _, inj h⟩)
  | st | str | sti => exact .inr (.inr (.inl ⟨_, _, inj h⟩))
  | jmp => exact .inr (.inr (.inr (.inl ⟨_, inj h⟩)))
  | jsr | jsrr => exact .inr (.inr (.inr (.inr (.inl ⟨_, inj h⟩))))
  | lookup | bset | sendacc => exact .inr (.inr (.inr (.inr (.inr ⟨_, _, inj h⟩))))

/-- All that a host access does to memory, read one word at a time. -/
theorem State.hostAccess_get (s : State) (h : Option HostAccess) (b : Nat) :
    Memory.get (s.hostAccess h).mem b =
      match h with
      | some (.load a v) => if b = a.toNat % 128 then v else Memory.get s.mem b
      | _ => Memory.get s.mem b := by
  rcases h with _ | ⟨a, v⟩ | a
  · rfl
  · exact State.memWrite_get s a v b
  · rfl

theorem State.hostAccess_wf {s : State} (hm : Memory.wf s.mem) (h : Option HostAccess) :
    Memory.wf (s.hostAccess h).mem := by
  rcases h with _ | ⟨a, v⟩ | a
  · exact hm
  · exact State.memWrite_wf hm a v
  · exact hm

/-- One step of a run of the core. -/
theorem core_run_succ (k : Nat) (s : State) :
    Sys2Proof.core.run (k + 1) s =
      match step s with
      | .next t => Sys2Proof.core.run k t
      | .fault r => .fault r
      | .refused r => .refused r := by
  simp only [Host.Core.run, Sys2Proof.core]
  cases step s <;> rfl

/-- The word the hook shows, as a number (40_engine.md R88). -/
theorem hookWord_toNat (op : BitVec 4) (p : BitVec 12) :
    (op ++ p : BitVec (4 + 12)).toNat = op.toNat * 4096 + p.toNat := by
  rw [BitVec.toNat_append, ← Nat.shiftLeft_add_eq_or_of_lt p.isLt, Nat.shiftLeft_eq]

end Sys2Proof.Machine
end

