-- ==== Sys2Proof/Tests/Slice0.lean ====
section
/-! SUPPORT. Tests. Words and expected results are the spec's own vectors (95_test_vectors.md, cited by id) and the examples of
the rules; then, for each statement with hypotheses, a concrete state and operands that meet them together. -/

namespace Sys2Proof.Tests

open Sys2Proof Sys2Proof.Machine

/-! ### Decoding: one written word for each constructor (95_test_vectors.md 2.1 and the rules' examples), which also meets
the hypothesis of the statement about that instruction -/

theorem test_decode_br : (0b0000010000000101 : Word) &&& 0xF000 = 0x0000 ∧
    decode 0b0000010000000101 = .br false true false 5 := by decide
theorem test_decode_br_mask_bits : decode 0b0000100111111111 = .br true false false 511 ∧
    decode 0b0000001000000000 = .br false false true 0 := by decide
theorem test_decode_addReg : (0b0001011001000010 : Word) &&& 0xF020 = 0x1000 ∧
    decode 0b0001011001000010 = .addReg 3 1 2 ∧ decode 0b0001000000011111 = .addReg 0 0 7 := by decide
theorem test_decode_addImm : (0b0001000000101111 : Word) &&& 0xF020 = 0x1020 ∧
    decode 0b0001000000101111 = .addImm 0 0 15 ∧ decode 0b0001111111111111 = .addImm 7 7 31 := by decide
theorem test_decode_ld : (0b0010010000000101 : Word) &&& 0xF000 = 0x2000 ∧ decode 0b0010010000000101 = .ld 2 5 ∧
    decode 0b0010111111111111 = .ld 7 511 := by decide
theorem test_decode_st : (0b0011011000000110 : Word) &&& 0xF000 = 0x3000 ∧ decode 0b0011011000000110 = .st 3 6 := by decide
theorem test_decode_jsrr : (0b0100000101000000 : Word) &&& 0xF800 = 0x4000 ∧ decode 0b0100000101000000 = .jsrr 5 ∧
    decode 0b0100011111111111 = .jsrr 7 := by decide
theorem test_decode_jsr : (0b0100100001100100 : Word) &&& 0xF800 = 0x4800 ∧ decode 0b0100100001100100 = .jsr 100 ∧
    decode 0b0100111111111111 = .jsr 2047 := by decide
theorem test_decode_andReg : (0b0101000001000010 : Word) &&& 0xF020 = 0x5000 ∧
    decode 0b0101000001000010 = .andReg 0 1 2 ∧ decode 0b0101000000011000 = .andReg 0 0 0 := by decide
theorem test_decode_andImm : (0b0101100100100000 : Word) &&& 0xF020 = 0x5020 ∧
    decode 0b0101100100100000 = .andImm 4 4 0 := by decide
theorem test_decode_ldr : (0b0110001011001010 : Word) &&& 0xF000 = 0x6000 ∧ decode 0b0110001011001010 = .ldr 1 3 10 ∧
    decode 0b0110111111111111 = .ldr 7 7 63 := by decide
theorem test_decode_str : (0b0111101111111111 : Word) &&& 0xF000 = 0x7000 ∧ decode 0b0111101111111111 = .str 5 7 63 := by
  decide
theorem test_decode_lookup : (0b1000000000000001 : Word) &&& 0xF000 = 0x8000 ∧ decode 0b1000000000000001 = .lookup 1 := by
  decide
theorem test_decode_not : (0b1001001010000000 : Word) &&& 0xF000 = 0x9000 ∧ decode 0b1001001010000000 = .not 1 2 ∧
    decode 0b1001111111111111 = .not 7 7 := by decide
theorem test_decode_ldi : (0b1010000011001000 : Word) &&& 0xF000 = 0xA000 ∧ decode 0b1010000011001000 = .ldi 0 200 := by
  decide
theorem test_decode_sti : (0b1011110000010101 : Word) &&& 0xF000 = 0xB000 ∧ decode 0b1011110000010101 = .sti 6 21 := by
  decide
theorem test_decode_jmp : (0b1100000011000000 : Word) &&& 0xF000 = 0xC000 ∧ decode 0b1100000011000000 = .jmp 3 ∧
    decode 0b1100111111111111 = .jmp 7 := by decide
theorem test_decode_bset : (0b1101101010111100 : Word) &&& 0xF000 = 0xD000 ∧
    decode 0b1101101010111100 = .bset 0xABC := by decide
theorem test_decode_lea : (0b1110000001111111 : Word) &&& 0xF000 = 0xE000 ∧ decode 0b1110000001111111 = .lea 0 127 := by
  decide
theorem test_decode_sendacc : (0b1111111111111111 : Word) &&& 0xF000 = 0xF000 ∧
    decode 0b1111111111111111 = .sendacc 0xFFF := by decide

/-- The table's numbering, and a word given in fewer bits than the instruction has. -/
theorem test_decodeTableWord : decodeTableWord 16 0x1642 = some (.addReg 3 1 2) ∧
    decodeTableWord 8 0x1642 = some (.br false false false 0x42) := by decide

/-- Encoding writes the words of the rules' examples. -/
theorem test_encode : encode (.str 5 7 63) = 0x7BFF ∧ encode (.jsr 100) = 0x4864 ∧ encode (.jsrr 5) = 0x4140 ∧
    encode (.br false true false 5) = 0x0405 ∧ encode (.bset 0xABC) = 0xDABC := by decide

/-! ### Well-formedness: an ill-formed line for each check -/

theorem test_wf_br : (Line.br true true true 512).wellFormed = false := by decide
theorem test_wf_add : (Line.add 8 0 0).wellFormed = false ∧ (Line.add 0 8 0).wellFormed = false ∧
    (Line.add 0 0 8).wellFormed = false := by decide
theorem test_wf_addLit : (Line.addLit 8 0 0).wellFormed = false ∧ (Line.addLit 0 8 0).wellFormed = false ∧
    (Line.addLit 0 0 32).wellFormed = false := by decide
theorem test_wf_and : (Line.and 8 0 0).wellFormed = false ∧ (Line.and 0 8 0).wellFormed = false ∧
    (Line.and 0 0 8).wellFormed = false := by decide
theorem test_wf_andLit : (Line.andLit 8 0 0).wellFormed = false ∧ (Line.andLit 0 8 0).wellFormed = false ∧
    (Line.andLit 0 0 32).wellFormed = false := by decide
theorem test_wf_not : (Line.not 8 0).wellFormed = false ∧ (Line.not 0 8).wellFormed = false := by decide
theorem test_wf_ld : (Line.ld 8 0).wellFormed = false ∧ (Line.ld 0 512).wellFormed = false := by decide
theorem test_wf_st : (Line.st 8 0).wellFormed = false ∧ (Line.st 0 512).wellFormed = false := by decide
theorem test_wf_ldi : (Line.ldi 8 0).wellFormed = false ∧ (Line.ldi 0 512).wellFormed = false := by decide
theorem test_wf_sti : (Line.sti 8 0).wellFormed = false ∧ (Line.sti 0 512).wellFormed = false := by decide
theorem test_wf_lea : (Line.lea 8 0).wellFormed = false ∧ (Line.lea 0 512).wellFormed = false := by decide
theorem test_wf_ldr : (Line.ldr 8 0 0).wellFormed = false ∧ (Line.ldr 0 8 0).wellFormed = false ∧
    (Line.ldr 0 0 64).wellFormed = false := by decide
theorem test_wf_str : (Line.str 8 0 0).wellFormed = false ∧ (Line.str 0 8 0).wellFormed = false ∧
    (Line.str 0 0 64).wellFormed = false := by decide
theorem test_wf_jsr : (Line.jsr 2048).wellFormed = false := by decide
theorem test_wf_base : (Line.jsrr 8).wellFormed = false ∧ (Line.jmp 8).wellFormed = false := by decide
theorem test_wf_payload : (Line.lookup 4096).wellFormed = false ∧ (Line.bset 4096).wellFormed = false ∧
    (Line.sendacc 4096).wellFormed = false := by decide
theorem test_wf_fill : (Line.fill 65536).wellFormed = false := by decide
/-- The largest numbers each field admits are accepted, and program P1's first words assemble as the spec prints them. -/
theorem test_wf_accepts : (Line.str 7 7 63).wellFormed = true ∧ (Line.jsr 2047).wellFormed = true ∧
    (Line.fill 65535).wellFormed = true ∧ (Line.ld 1 20).assemble = some 0x2214 ∧
    (Line.add 3 1 2).assemble = some 0x1642 ∧ Line.nop.assemble = some 0 := by decide

/-! ### One step on a small state: the vectors of 95_test_vectors.md -/

/-- A vector's start: the reset state with a pc, a flag, registers and memory words set, the word at address 100, and the
request for it (95_test_vectors.md, section 0). -/
def start (pc : Word) (flag : CondFlag) (regs : List (RegIx × Word)) (words : List (Nat × Word)) (w : Word) : State :=
  { State.reset with
    pc := pc
    flag := flag
    x := regs.foldl (fun x r => x.set r.1 r.2) State.reset.x
    mem := words.foldl (fun m c => Memory.set m c.1 c.2) (Memory.set [] 100 w)
    inputs := [Edge.exec 100] }

/-- The next state, if the step answers one. -/
def after (s : State) : Option State :=
  match step s with
  | .next t => some t
  | .fault _ => none
  | .refused _ => none

/-- One register, the flag and the pc after a step. -/
def seen (r : RegIx) (s : State) : Option (Word × CondFlag × Word) := (after s).map fun t => (t.x[r], t.flag, t.pc)

/-- One memory word, the flag and the pc after a step. -/
def stored (a : Nat) (s : State) : Option (Word × CondFlag × Word) :=
  (after s).map fun t => (Memory.get t.mem a, t.flag, t.pc)

theorem test_V_OP1 : seen 3 (start 0 .P [(1, 0xFFFF), (2, 1)] [] 0x1642) = some (0, .Z, 0) := by decide
theorem test_V_OP4 : seen 1 (start 0 .Z [(1, 0x4000)] [] 0x1249) = some (0x8000, .N, 0) := by decide
theorem test_V_OP5 : seen 0 (start 0 .Z [] [] 0x103F) = some (31, .P, 0) := by decide
theorem test_V_OP6 : seen 0 (start 0 .Z [(0, 0xFFE1)] [] 0x103F) = some (0, .Z, 0) := by decide
theorem test_V_OP9 : seen 0 (start 0 .Z [(1, 0xF0F0), (2, 0x0FF0)] [] 0x5042) = some (0x00F0, .P, 0) := by decide
theorem test_V_OP12 : seen 0 (start 0 .P [(0, 0x8001)] [] 0x5000) = some (0x8001, .N, 0) := by decide
theorem test_V_OP10 : seen 7 (start 0 .Z [(0, 0xFFFF)] [] 0x5E3F) = some (31, .P, 0) := by decide
theorem test_V_OP11 : seen 5 (start 0 .N [(5, 0x8000)] [] 0x5B60) = some (0, .Z, 0) := by decide
theorem test_V_OP13 : seen 7 (start 0 .Z [] [] 0x9E3F) = some (0xFFFF, .N, 0) := by decide
theorem test_V_OP15 : seen 1 (start 0 .Z [(1, 0x8000)] [] 0x9240) = some (0x7FFF, .P, 0) := by decide
theorem test_V_CT1 : seen 0 (start 127 .N [] [] 0x0FFF) = some (0, .N, 126) := by decide
theorem test_V_CT6 : seen 0 (start 33 .Z [] [] 0x0A05) = some (0, .Z, 33) := by decide
theorem test_V_CT7 : seen 7 (start 77 .Z [(7, 0xAAAA)] [] 0x4800) = some (77, .Z, 77) := by decide
theorem test_V_CT8 : seen 7 (start 10 .Z [] [] 0x4FFF) = some (10, .Z, 9) := by decide
theorem test_V_CT9 : seen 7 (start 50 .Z [(7, 3)] [] 0x41C0) = some (50, .Z, 7) := by decide
theorem test_V_CT11 : seen 7 (start 0 .N [] [] 0x4000) = some (0, .N, 0) := by decide
theorem test_V_CT12 : seen 7 (start 64 .Z [(7, 0x30)] [] 0xC1C0) = some (0x30, .Z, 7) := by decide
theorem test_V_CT13 : seen 0 (start 64 .Z [] [] 0xCE3F) = some (0, .Z, 0) := by decide
theorem test_V_LS1 : seen 0 (start 100 .N [(0, 9)] [] 0x21FF) = some (0, .Z, 100) := by decide
theorem test_V_LS2 : seen 7 (start 3 .Z [] [(3, 0x7FFF)] 0x2E00) = some (0x7FFF, .P, 3) := by decide
theorem test_V_LS3 : stored 127 (start 0 .Z [(7, 0x8000)] [] 0x3FFF) = some (0x8000, .Z, 0) := by decide
theorem test_V_LS15 : stored 100 (start 99 .Z [(5, 0x1FFF)] [] 0x3A01) = some (0x1FFF, .Z, 99) := by decide
theorem test_V_LS5 : seen 7 (start 0 .Z [(7, 1)] [(70, 0xFFFF)] 0x6FFF) = some (0xFFFF, .N, 0) := by decide
theorem test_V_LS6 : seen 0 (start 0 .Z [] [(0, 0x1234)] 0x6000) = some (0x1234, .P, 0) := by decide
theorem test_V_LS7 : stored 63 (start 0 .N [(7, 0x00FF)] [] 0x7E3F) = some (0x00FF, .N, 0) := by decide
theorem test_R106_example : stored 70 (start 0 .Z [(5, 0xCAFE)] [] 0x7BFF) = some (0xCAFE, .Z, 0) := by decide
theorem test_V_LS8 : seen 0 (start 0 .Z [] [(127, 0x8000), (0, 0xBEEF)] 0xA1FF) = some (0xBEEF, .N, 0) := by decide
theorem test_V_LS9 : seen 0 (start 10 .N [] [(12, 12)] 0xA002) = some (12, .P, 10) := by decide
theorem test_V_LS10 : stored 12 (start 10 .Z [(1, 0x5A5A)] [(12, 12)] 0xB202) = some (0x5A5A, .Z, 10) := by decide
theorem test_V_LS11 : stored 0 (start 10 .Z [(2, 1)] [(12, 128)] 0xB402) = some (1, .Z, 10) := by decide
theorem test_E4 : seen 0 (start 127 .Z [] [] 0xE005) = some (4, .P, 127) := by decide
theorem test_V_LS13 : seen 7 (start 1 .N [(7, 5)] [] 0xEFFF) = some (0, .Z, 1) := by decide
theorem test_V_RS1 : (after (start 9 .N [(3, 0x1111)] [] 0x8FFF)).map (fun t => (t.out.hook, t.pc, t.x[3])) =
    some (some ⟨8, 0x8FFF⟩, 9, 0x1111) := by decide
theorem test_V_RS2 : (after (start 0 .P [] [] 0xD000)).map (fun t => (t.out.hook, t.flag)) =
    some (some ⟨13, 0xD000⟩, .P) := by decide
theorem test_V_RS3 : (after (start 127 .Z [(7, 0xFFFF)] [] 0xF123)).map (fun t => (t.out.hook, t.pc)) =
    some (some ⟨15, 0xF123⟩, 127) := by decide

/-! ### The host, reset and the fetch -/

/-- V-HS1: reset from a state that has everything set. -/
theorem test_V_HS1 : after { start 9 .N [(3, 7)] [(5, 5)] 0x1025 with inputs := [Edge.reset] } = some State.reset := by
  decide
/-- V-HS2: `Load(300, 0x1025)` writes word 44. -/
theorem test_V_HS2 : stored 44 (State.resetWith [Edge.load 300 0x1025]) = some (0x1025, .Z, 0) := by decide
/-- V-HS3: `Read(172)` shows word 44 and changes nothing. -/
theorem test_V_HS3 : ((start 0 .Z [] [(44, 0x1025)] 0).ports 172).hostRdata = 0x1025 := by decide
/-- V-HS4: a load and a request at one edge. -/
theorem test_V_HS4 : seen 0 (State.resetWith [Edge.loadExec 3 0x1021 3]) = some (1, .P, 0) := by decide
/-- E8: `Exec(200)` fetches word 72; the write of 0 leaves no entry behind. -/
theorem test_E8 : seen 0 { start 0 .Z [] [(72, 0x1025)] 0 with inputs := [Edge.exec 200] } = some (5, .P, 0) := by decide
theorem test_write_keeps_canonical_form : Memory.set (Memory.set (Memory.set [] 9 1) 4 2) 9 0 = [(4, 2)] := by decide
/-- The word the host places is the one the next step runs. -/
theorem test_withFetchWord : seen 0 (State.reset.withFetchWord 16 0x102F) = some (15, .P, 0) := by decide

/-! ### Hypotheses that are met: for each statement with hypotheses, at the boundary of each clause. The masks of the
instruction statements are met in the decoding tests above -/

theorem test_hyp_BranchFollowsItsMask : (∃ s : State, true = true ∧ s.flag = .N) ∧
    ∃ s : State, ¬(false = true ∧ s.flag = .N ∨ true = true ∧ s.flag = .Z ∨ false = true ∧ s.flag = .P) :=
  ⟨⟨start 0 .N [] [] 0, by decide⟩, ⟨start 0 .P [] [] 0, by decide⟩⟩
theorem test_hyp_HookReportsExactlyTheReservedWords :
    (start 9 .N [] [] 0x8FFF).inputs = Edge.exec 100 :: [] ∧
    (Memory.get (start 9 .N [] [] 0x8FFF).mem ((100 : Word).toNat % 128)).toNat / 4096 = 8 ∧
    (Memory.get (start 9 .N [] [] 0xD000).mem ((100 : Word).toNat % 128)).toNat / 4096 = 13 ∧
    (Memory.get (start 9 .N [] [] 0xFFFF).mem ((100 : Word).toNat % 128)).toNat / 4096 = 15 ∧
    (Memory.get (start 9 .N [] [] 0x7FFF).mem ((100 : Word).toNat % 128)).toNat / 4096 = 7 := by decide
theorem test_hyp_NoOpWordsChangeNothing : (0x01FF : Word).toNat < 512 ∧ (0x8000 : Word).toNat / 4096 = 8 ∧
    (0xDFFF : Word).toNat / 4096 = 13 ∧ (0xFFFF : Word).toNat / 4096 = 15 := by decide
theorem test_hyp_IgnoredBitsDoNotChangeTheInstruction :
    (0x1000 : Word) &&& usedBits (decode 0x1000) = 0x1018 &&& usedBits (decode 0x1000) ∧
    (0xC000 : Word) &&& usedBits (decode 0xC000) = 0xCE3F &&& usedBits (decode 0xC000) := by decide
/-- A number on each side of every kind of field's range. -/
theorem test_hyp_AssembledLinesDecodeToTheirOperands :
    (Line.br true true true 511).assemble = some 0x0FFF ∧ (Line.br true true true 512).wellFormed = false ∧
    (Line.andLit 7 7 31).assemble = some 0x5FFF ∧ (Line.andLit 7 7 32).wellFormed = false ∧
    (Line.ldr 7 7 63).assemble = some 0x6FFF ∧ (Line.ldr 7 8 63).wellFormed = false ∧
    (Line.jsr 2047).assemble = some 0x4FFF ∧ (Line.jsr 2048).wellFormed = false ∧
    (Line.sendacc 4095).assemble = some 0xFFFF ∧ (Line.sendacc 4096).wellFormed = false ∧
    (Line.fill 65535).assemble = some 0xFFFF ∧ (Line.fill 65536).wellFormed = false := by decide
theorem test_hyp_ReadAfterWriteSeesTheWord : (200 : Word).toNat % 128 = (72 : Word).toNat % 128 ∧
    (200 : Word).toNat % 128 ≠ (73 : Word).toNat % 128 := by decide
theorem test_hyp_CanonicalMemoriesThatReadAlikeAreEqual :
    Memory.wf (Memory.set (Memory.set [] 3 5) 127 2) ∧ Memory.wf (Memory.set (Memory.set [] 127 2) 3 5) ∧
    ∀ a : Nat, Memory.get (Memory.set (Memory.set [] 3 5) 127 2) a =
      Memory.get (Memory.set (Memory.set [] 127 2) 3 5) a := ⟨by decide, by decide, fun _ => rfl⟩
theorem test_hyp_PcUnitComputesTheNextPc :
    (∃ t : State, exec (.jsr 2047) (start 10 .Z [] [] 0) = .next t) ∧
    ∃ t : State, exec (.jsrr 7) (start 10 .Z [] [] 0) = .next t := ⟨⟨_, rfl⟩, ⟨_, rfl⟩⟩
theorem test_hyp_OnlyFourInstructionsChangeThePc : (start 64 .Z [] [] 0xC1C0).inputs = Edge.exec 100 :: [] ∧
    (Edge.exec 100).rst = false ∧
    ∃ t : State, step (start 64 .Z [] [] 0xC1C0) = .next t ∧ t.pc ≠ (start 64 .Z [] [] 0xC1C0).pc :=
  ⟨by decide, by decide, ⟨_, rfl, by decide⟩⟩
theorem test_hyp_FlagIsSetByExactlyTheFlagSettingInstructions :
    (∃ t : State, exec (.lea 7 511) (start 1 .N [] [] 0) = .next t) ∧ flagDest (.lea 7 511) = some 7 ∧
    (∃ t : State, exec (.jsr 0) (start 1 .N [] [] 0) = .next t) ∧ flagDest (.jsr 0) = none :=
  ⟨⟨_, rfl⟩, rfl, ⟨_, rfl⟩, rfl⟩
theorem test_hyp_OnlyBranchReadsTheFlag : ∀ (n z p : Bool) (offset9 : BitVec 9), Instr.jmp 3 ≠ .br n z p offset9 := by
  intro n z p offset9 h
  cases h
theorem test_hyp_RegistersAreReadAndWrittenAsListed : ∀ r ∈ regSources (.addReg 0 1 2),
    (State.reset.x.set 5 9)[r] = State.reset.x[r] := by decide
theorem test_hyp_EachInstructionWritesWhatTheTableLists :
    (∃ t : State, exec (.str 5 7 63) (start 0 .Z [] [] 0) = .next t) ∧
    storeIndex (.str 5 7 63) (start 0 .Z [] [] 0) = some 70 ∧ regDest (.str 5 7 63) ≠ some 7 ∧
    writesPc (.str 5 7 63) .Z = false ∧ flagDest (.str 5 7 63) = none ∧
    (∃ t : State, exec (.jsr 1) (start 0 .Z [] [] 0) = .next t) ∧ storeIndex (.jsr 1) (start 0 .Z [] [] 0) = none :=
  ⟨⟨_, rfl⟩, by decide, by decide, rfl, rfl, ⟨_, rfl⟩, rfl⟩
theorem test_hyp_FlagTrackerSplitsTheSixteenBitRange :
    (∃ t : State, exec (.not 7 0) (start 0 .Z [] [] 0) = .next t) ∧ flagDest (.not 7 0) = some 7 := ⟨⟨_, rfl⟩, rfl⟩
theorem test_hyp_JumpToSubroutineLinksAndJumps : (start 127 .N [] [] 0).pc.toNat < 128 := by decide
theorem test_hyp_NotAddAddSubtracts : (1 : RegIx) ≠ 2 := by decide
theorem test_hyp_TransactionRunsTheFetchedInstruction : ∃ s : State,
    s.inputs = Edge.loadExec 3 0x1021 131 :: [] ∧ (Edge.loadExec 3 0x1021 131).rst = false ∧
    (Edge.loadExec 3 0x1021 131).req = some 131 := ⟨State.resetWith [Edge.loadExec 3 0x1021 131], rfl, rfl, rfl⟩
theorem test_hyp_FetchAddressesCongruentModulo128AreOne : (200 : Word).toNat % 128 = (72 : Word).toNat % 128 := by decide
theorem test_hyp_HostAccessWritesAtMostOneWord : ∃ s : State, s.inputs = ⟨false, some (.load 300 0x1025), none⟩ :: [] :=
  ⟨State.resetWith [Edge.load 300 0x1025], rfl⟩
theorem test_hyp_ResetEdgeTakesTheResetState : ∃ s : State,
    s.pc = 9 ∧ s.inputs = ⟨true, some (.load 3 3), some 5⟩ :: [] :=
  ⟨{ start 9 .N [] [] 0 with inputs := [⟨true, some (.load 3 3), some 5⟩] }, rfl, rfl⟩
theorem test_hyp_IdleBlockHoldsItsState : State.reset.inputs = [] := rfl
theorem test_hyp_PortsShowTheState : (start 127 .N [] [] 0x8FFF).Inv := by decide
/-- V-LS15 with a second request: the ST at 100 stores over its own word. -/
theorem test_hyp_LaterFetchSeesTheStoredWord : ∃ s : State,
    s.inputs = Edge.exec 100 :: Edge.exec 228 :: [] ∧
    decode (Memory.get s.mem ((100 : Word).toNat % 128)) = .st 5 1 ∧
    (228 : Word).toNat % 128 = (s.pc.toNat + (1 : BitVec 9).toNat) % 128 :=
  ⟨{ start 99 .Z [(5, 0x1FFF)] [] 0x3A01 with inputs := [Edge.exec 100, Edge.exec 228] }, by decide⟩
theorem test_hyp_EveryStepKeepsThePcAndMemoryInvariant : (start 127 .N [] [] 0x0FFF).Inv ∧
    ∃ t : State, step (start 127 .N [] [] 0x0FFF) = .next t := ⟨by decide, ⟨_, rfl⟩⟩
theorem test_hyp_EveryRunGoesOnSafely : (start 127 .N [] [(127, 0x8000)] 0x0FFF).Inv := by decide

end Sys2Proof.Tests
end

/-! ## The state: its invariant, its reset, and what its instructions read and write (10_state.md) -/

namespace Sys2Proof.Machine

/-! ### The invariant (R18, R20, R32) -/

theorem State.reset_inv : State.reset.Inv := ⟨by decide, Memory.wf_nil⟩

theorem State.resetBlock_inv (s : State) : s.resetBlock.Inv := ⟨by simp, Memory.wf_nil⟩

/-- A host access writes no pc, and a load goes through the translator (R76). -/
theorem State.hostAccess_inv {s : State} (hs : s.Inv) (h : Option HostAccess) : (s.hostAccess h).Inv := by
  obtain ⟨hpc, hmem⟩ := hs
  exact ⟨by rwa [State.hostAccess_pc], State.hostAccess_wf hmem h⟩

/-- Every pc write and every store goes through the translator, so that no instruction leaves the invariant. -/
theorem exec_keeps_inv {i : Instr} {s t : State} (hs : s.Inv) (h : exec i s = .next t) : t.Inv := by
  obtain ⟨hpc, hmem⟩ := hs
  rcases exec_cases h with rfl | ⟨dr, v, rfl⟩ | ⟨a, v, rfl⟩ | ⟨u, rfl⟩ | ⟨u, rfl⟩ | ⟨op, p, rfl⟩
  · exact ⟨hpc, hmem⟩
  · exact ⟨hpc, hmem⟩
  · exact ⟨hpc, State.memWrite_wf hmem a v⟩
  · exact ⟨tr_lt u, hmem⟩
  · exact ⟨tr_lt u, hmem⟩
  · exact ⟨hpc, hmem⟩

theorem step_keeps_inv {s t : State} (hs : s.Inv) (h : step s = .next t) : t.Inv := by
  have taken (rest : List Edge) : (s.takeEdge rest).Inv := hs
  rcases step_cases h with ⟨-, rfl⟩ | ⟨e, rest, -, -, rfl⟩ | ⟨e, rest, -, -, -, rfl⟩ | ⟨e, rest, a, -, -, -, hexec⟩
  · exact hs
  · exact State.resetBlock_inv _
  · exact State.hostAccess_inv (taken rest) e.host
  · have before : ((s.takeEdge rest).hostAccess e.host).complete.Inv := State.hostAccess_inv (taken rest) e.host
    exact exec_keeps_inv before hexec

/-- Settles O48: one case for each thing a step can do (`step_cases`), and within a transaction one for each thing an
instruction can do (`exec_cases`). -/
theorem everyStepKeepsThePcAndMemoryInvariant : Obligations.EveryStepKeepsThePcAndMemoryInvariant :=
  fun _ _ => step_keeps_inv

/-- Settles O49: pc 0, and the memory with no entry. -/
theorem resetMeetsThePcAndMemoryInvariant : Obligations.ResetMeetsThePcAndMemoryInvariant := State.reset_inv

/-- Settles O44: each field of the reset state is written out (R31), and a memory with no entry reads 0. -/
theorem resetLeavesEverythingZero : Obligations.ResetLeavesEverythingZero :=
  ⟨rfl, rfl, fun r => by simp [State.reset], Memory.get_nil⟩

/-! ### The canonical form of memory (R27, R31; log entry 2) -/

theorem Memory.wf_cons {k : Nat} {w : Word} {m : Memory} :
    Memory.wf ((k, w) :: m) ↔ (∀ c ∈ m, k < c.1) ∧ k < Config.memorySize ∧ w ≠ 0 ∧ Memory.wf m := by
  have unlisted : Memory.unlisted = 0 := rfl
  simp only [Memory.wf, List.pairwise_cons, List.forall_mem_cons, unlisted]
  tauto

/-- An index below every listed one is unlisted. -/
theorem Memory.get_eq_zero_of_lt {m : Memory} {a : Nat} (h : ∀ c ∈ m, a < c.1) : Memory.get m a = 0 := by
  induction m with
  | nil => rfl
  | cons c m ih =>
    obtain ⟨hc, hm⟩ := List.forall_mem_cons.mp h
    rw [Memory.get_cons, if_neg hc.ne', ih hm]

/-- A canonical memory reads 0 below its first entry, and not 0 at it: so the first index is at most that of every
canonical memory that reads alike. -/
theorem Memory.head_le_of_get_eq {k k' : Nat} {w w' : Word} {m m' : Memory} (h : Memory.wf ((k, w) :: m))
    (h' : Memory.wf ((k', w') :: m'))
    (hget : ∀ a, Memory.get ((k, w) :: m) a = Memory.get ((k', w') :: m') a) : k ≤ k' := by
  obtain ⟨hk, -⟩ := Memory.wf_cons.mp h
  obtain ⟨-, -, hw', -⟩ := Memory.wf_cons.mp h'
  by_contra hlt
  have below : ∀ c ∈ (k, w) :: m, k' < c.1 :=
    List.forall_mem_cons.mpr ⟨by omega, fun c hc => by have := hk c hc; omega⟩
  have read : w' = 0 := by
    calc w' = Memory.get ((k', w') :: m') k' := by simp [Memory.get_cons]
      _ = Memory.get ((k, w) :: m) k' := (hget k').symm
      _ = 0 := Memory.get_eq_zero_of_lt below
  exact hw' read

/-- A canonical memory with an entry reads differently from the empty one. -/
theorem Memory.get_head_ne_zero {k : Nat} {w : Word} {m : Memory} (h : Memory.wf ((k, w) :: m)) :
    Memory.get ((k, w) :: m) k ≠ 0 := by
  obtain ⟨-, -, hw, -⟩ := Memory.wf_cons.mp h
  simpa [Memory.get_cons] using hw

theorem Memory.eq_of_get_eq {m m' : Memory} (h : Memory.wf m) (h' : Memory.wf m')
    (hget : ∀ a, Memory.get m a = Memory.get m' a) : m = m' := by
  induction m generalizing m' with
  | nil =>
    cases m' with
    | nil => rfl
    | cons c m' => exact absurd (hget c.1).symm (Memory.get_head_ne_zero h')
  | cons c m ih =>
    obtain ⟨k, w⟩ := c
    cases m' with
    | nil => exact absurd (hget k) (Memory.get_head_ne_zero h)
    | cons c' m' =>
      obtain ⟨k', w'⟩ := c'
      have hkk : k = k' :=
        (Memory.head_le_of_get_eq h h' hget).antisymm (Memory.head_le_of_get_eq h' h fun a => (hget a).symm)
      subst hkk
      have hww : w = w' := by simpa [Memory.get_cons] using hget k
      subst hww
      obtain ⟨hk, -, -, hm⟩ := Memory.wf_cons.mp h
      obtain ⟨hk', -, -, hm'⟩ := Memory.wf_cons.mp h'
      have tails (a : Nat) : Memory.get m a = Memory.get m' a := by
        by_cases ha : k = a
        · subst ha
          rw [Memory.get_eq_zero_of_lt hk, Memory.get_eq_zero_of_lt hk']
        · simpa [Memory.get_cons, ha] using hget a
      rw [ih hm hm' tails]

/-- Settles O29, by induction on the one list: the first entries agree, and so the rest reads alike. -/
theorem canonicalMemoriesThatReadAlikeAreEqual : Obligations.CanonicalMemoriesThatReadAlikeAreEqual :=
  fun _ _ => Memory.eq_of_get_eq

/-! ### The output pulses (R30, R88) -/

@[simp] theorem State.idle_withOut (s : State) (o : Outputs) : State.idle { s with out := o } = s.idle := rfl

@[simp] theorem State.takeEdge_withOut (s : State) (o : Outputs) (rest : List Edge) :
    State.takeEdge { s with out := o } rest = s.takeEdge rest := rfl

/-- Settles O45: a step idles or takes an edge, and both clear the pulses first. -/
theorem noStepReadsTheOutputPulses : Obligations.NoStepReadsTheOutputPulses := by
  intro s o
  simp only [step, State.idle_withOut, State.takeEdge_withOut]

/-! ### What an instruction writes, beside what the tables list for it (R17, R21, R41, R86) -/

theorem exec_br_taken {n z p : Bool} {o : BitVec 9} {s : State} (h : condTrue n z p s.flag = true) :
    exec (.br n z p o) s = .next (s.setPc (pcRel s.pc o)) := if_pos h

theorem exec_br_not_taken {n z p : Bool} {o : BitVec 9} {s : State} (h : ¬ condTrue n z p s.flag = true) :
    exec (.br n z p o) s = .next s := if_neg h

/-- The effect of instruction `i` from `s`, with the entries of the spec's tables that it accounts for. It refines
`exec_cases`, which does not say which instruction has which effect. -/
inductive ListedEffect (i : Instr) (s : State) : State → Prop where
  | nothing (hreg : regDest i = none) (hflag : flagDest i = none) (hstore : storeIndex i s = none)
      (hpc : writesPc i s.flag = false) : ListedEffect i s s
  | dest (dr : RegIx) (v : Word) (hreg : regDest i = some dr) (hflag : flagDest i = some dr)
      (hstore : storeIndex i s = none) (hpc : writesPc i s.flag = false) : ListedEffect i s (s.writeDest dr v)
  | store (a v : Word) (hreg : regDest i = none) (hflag : flagDest i = none)
      (hstore : storeIndex i s = some (tr a).toNat) (hpc : writesPc i s.flag = false) :
      ListedEffect i s (s.memWrite a v)
  | jump (u : Word) (hreg : regDest i = none) (hflag : flagDest i = none) (hstore : storeIndex i s = none)
      (hpc : writesPc i s.flag = true) : ListedEffect i s (s.setPc u)
  | link (u : Word) (hreg : regDest i = some Config.linkReg) (hflag : flagDest i = none)
      (hstore : storeIndex i s = none) (hpc : writesPc i s.flag = true) :
      ListedEffect i s ((s.setX Config.linkReg s.pc).setPc u)
  | pulse (op : BitVec 4) (p : BitVec 12) (hreg : regDest i = none) (hflag : flagDest i = none)
      (hstore : storeIndex i s = none) (hpc : writesPc i s.flag = false) : ListedEffect i s (s.pulseHook op p)

/-- Every instruction answers a next state (R90), by the effect the tables list for it. -/
theorem exec_next_listedEffect (i : Instr) (s : State) : ∃ t, exec i s = .next t ∧ ListedEffect i s t := by
  cases i with
  | br n z p o =>
    by_cases taken : condTrue n z p s.flag = true
    · exact ⟨_, exec_br_taken taken, .jump _ rfl rfl rfl taken⟩
    · exact ⟨_, exec_br_not_taken taken, .nothing rfl rfl rfl (by simpa [writesPc] using taken)⟩
  | addReg | addImm | andReg | andImm | not | ld | ldr | ldi | lea => exact ⟨_, rfl, .dest _ _ rfl rfl rfl rfl⟩
  | st | str | sti => exact ⟨_, rfl, .store _ _ rfl rfl rfl rfl⟩
  | jmp => exact ⟨_, rfl, .jump _ rfl rfl rfl rfl⟩
  | jsr | jsrr => exact ⟨_, rfl, .link _ rfl rfl rfl rfl⟩
  | lookup | bset | sendacc => exact ⟨_, rfl, .pulse _ _ rfl rfl rfl rfl⟩

theorem exec_listedEffect {i : Instr} {s t : State} (h : exec i s = .next t) : ListedEffect i s t := by
  obtain ⟨u, hu, effect⟩ := exec_next_listedEffect i s
  have : u = t := by simpa [hu] using h
  exact this ▸ effect

/-- Only an instruction that writes the pc changes it: nothing advances it (R21). -/
theorem exec_pc_of_not_writesPc {i : Instr} {s t : State} (h : exec i s = .next t)
    (hpc : writesPc i s.flag = false) : t.pc = s.pc := by
  cases exec_listedEffect h with
  | nothing | dest | store | pulse => rfl
  | jump _ _ _ _ hw | link _ _ _ _ hw => simp [hw] at hpc

/-- A register that is not the instruction's destination stays (R17). -/
theorem exec_x_of_ne_regDest {i : Instr} {s t : State} (h : exec i s = .next t) {r : RegIx}
    (hr : regDest i ≠ some r) : t.x[r] = s.x[r] := by
  cases exec_listedEffect h with
  | nothing | store | jump | pulse => rfl
  | dest dr v hreg =>
    obtain ⟨-, -, kept, -⟩ := State.writeDest_spec s dr v
    exact kept r fun e => hr (e ▸ hreg)
  | link u hreg =>
    obtain ⟨-, -, kept, -⟩ := State.link_spec s u
    exact kept r fun e => hr (e ▸ hreg)

/-- A host access writes the same memory whichever edges are to come. -/
@[simp] theorem State.hostAccess_takeEdge_mem (s : State) (rest : List Edge) (h : Option HostAccess) :
    ((s.takeEdge rest).hostAccess h).mem = (s.hostAccess h).mem := by
  rcases h with _ | ⟨a, v⟩ | a <;> rfl

/-- A transaction keeps the pc unless its instruction writes it: taking the edge, the host's access and the fetch leave
the pc and the flag as they were. -/
theorem transaction_pc {s t : State} {rest : List Edge} {h : Option HostAccess} {a : Word}
    (hexec : exec (decode (((s.takeEdge rest).hostAccess h).fetch a)) ((s.takeEdge rest).hostAccess h).complete =
      .next t)
    (hpc : writesPc (decode (Memory.get (s.hostAccess h).mem (a.toNat % 128))) s.flag = false) : t.pc = s.pc := by
  have fetched : ((s.takeEdge rest).hostAccess h).fetch a = Memory.get (s.hostAccess h).mem (a.toNat % 128) := by
    rw [State.fetch, State.memRead_eq, State.hostAccess_takeEdge_mem]
  rw [fetched] at hexec
  simpa using exec_pc_of_not_writesPc hexec (by simpa using hpc)

/-- Settles O31: without reset the pc can change in a transaction alone, and there by an instruction that writes it. -/
theorem onlyFourInstructionsChangeThePc : Obligations.OnlyFourInstructionsChangeThePc := by
  intro s t e rest hin hrst hstep hne
  rcases step_cases hstep with
    ⟨hin', -⟩ | ⟨e', rest', hin', hrst', -⟩ | ⟨e', rest', -, -, -, rfl⟩ | ⟨e', rest', a, hin', -, hreq, hexec⟩
  case inl => simp [hin] at hin'
  case inr.inl =>
    obtain ⟨rfl, rfl⟩ := List.cons.inj (hin.symm.trans hin')
    simp [hrst] at hrst'
  case inr.inr.inl => simp at hne
  case inr.inr.inr =>
    obtain ⟨rfl, rfl⟩ := List.cons.inj (hin.symm.trans hin')
    exact ⟨a, _, hreq, rfl, Bool.of_not_eq_false fun hpc => hne (transaction_pc hexec hpc)⟩

/-! ### What an instruction reads (R17, R25) -/

/-- Every instruction but BR does the same from any flag: a flag-setting one overwrites it, and any other keeps it. -/
theorem exec_withFlag {i : Instr} {s t : State} (h : exec i s = .next t)
    (hbr : ∀ (n z p : Bool) (offset9 : BitVec 9), i ≠ .br n z p offset9) (f : CondFlag) :
    exec i { s with flag := f } = .next { t with flag := if (flagDest i).isSome then t.flag else f } := by
  cases i with
  | br n z p o => exact absurd rfl (hbr n z p o)
  | addReg | addImm | andReg | andImm | not | ld | ldr | ldi | lea => cases h; rfl
  | st | str | sti | jmp | jsr | jsrr | lookup | bset | sendacc => cases h; rfl

/-- Settles O33: by `exec_withFlag` the two next states differ in the flag alone. -/
theorem onlyBranchReadsTheFlag : Obligations.OnlyBranchReadsTheFlag := by
  intro i s f hbr
  obtain ⟨t, ht, -⟩ := exec_next_listedEffect i s
  exact ⟨t, _, ht, exec_withFlag ht hbr f, rfl, rfl, rfl, rfl, rfl⟩

/-- The registers `y`, but for the destination register, if there is one, which holds what `x` holds there. -/
def withDestOf (d : Option RegIx) (x y : Vector Word 8) : Vector Word 8 :=
  match d with
  | none => y
  | some r => y.set r x[r]

theorem getElem_withDestOf (d : Option RegIx) (x y : Vector Word 8) (r : RegIx) :
    (withDestOf d x y)[r] = if d = some r then x[r] else y[r] := by
  cases d with
  | none => simp [withDestOf]
  | some d =>
    by_cases hdr : d = r
    · simp [withDestOf, hdr]
    · have : (d : Nat) ≠ (r : Nat) := fun e => hdr (Fin.ext e)
      simp [withDestOf, hdr, this]

/-- A destination write of one value, whatever the other registers hold. -/
theorem State.writeDest_withX (s : State) (y : Vector Word 8) (dr : RegIx) (v : Word) :
    State.writeDest { s with x := y } dr v =
      { s.writeDest dr v with x := withDestOf (some dr) (s.writeDest dr v).x y } := by
  apply State.ext_fields <;> simp [withDestOf]

theorem State.link_withX (s : State) (y : Vector Word 8) (u : Word) :
    (State.setX { s with x := y } Config.linkReg s.pc).setPc u =
      { (s.setX Config.linkReg s.pc).setPc u with
        x := withDestOf (some Config.linkReg) ((s.setX Config.linkReg s.pc).setPc u).x y } := by
  apply State.ext_fields <;> simp [withDestOf]

/-- Where the registers an instruction reads are the same, all else it leaves is the same, its destination included. -/
theorem exec_withX {i : Instr} {s t : State} (h : exec i s = .next t) {y : Vector Word 8}
    (hy : ∀ r ∈ regSources i, y[r] = s.x[r]) :
    exec i { s with x := y } = .next { t with x := withDestOf (regDest i) t.x y } := by
  have read {r : RegIx} (hr : r ∈ regSources i) : State.getX { s with x := y } r = s.getX r := hy r hr
  cases i with
  | br n z p o =>
    by_cases taken : condTrue n z p s.flag = true
    · rw [exec_br_taken taken] at h
      cases h
      exact exec_br_taken taken
    · rw [exec_br_not_taken taken] at h
      cases h
      exact exec_br_not_taken taken
  | addReg dr sr1 sr2 | andReg dr sr1 sr2 =>
    cases h
    simp only [exec, execAddReg, execAndReg, read (r := sr1) (by simp [regSources]),
      read (r := sr2) (by simp [regSources]), State.writeDest_withX]
    rfl
  | addImm dr sr1 | andImm dr sr1 | not dr sr1 =>
    cases h
    simp only [exec, execAddImm, execAndImm, execNot, read (r := sr1) (by simp [regSources]), State.writeDest_withX]
    rfl
  | ld | ldr | ldi | lea =>
    cases h
    exact congrArg _ (State.writeDest_withX s y _ _)
  | st sr | str sr | sti sr =>
    cases h
    simp only [exec, execSt, execStr, execSti, read (r := sr) (by simp [regSources])]
    rfl
  | jmp => cases h; rfl
  | jsr | jsrr =>
    cases h
    exact congrArg _ (State.link_withX s y _)
  | lookup | bset | sendacc => cases h; rfl

/-- Settles O34: what is read by `exec_withX`, what is written by `exec_x_of_ne_regDest`. -/
theorem registersAreReadAndWrittenAsListed : Obligations.RegistersAreReadAndWrittenAsListed := by
  intro i s y hy
  obtain ⟨t, ht, -⟩ := exec_next_listedEffect i s
  refine ⟨t, _, ht, exec_withX ht hy, rfl, rfl, rfl, rfl, rfl, fun r => ?_⟩
  rw [getElem_withDestOf]
  split
  · rfl
  · exact ⟨exec_x_of_ne_regDest ht ‹_›, rfl⟩

end Sys2Proof.Machine

/-! ## The memory: the translator, what a read sees, and the fetch of a stored word (20_memory.md) -/

namespace Sys2Proof.Machine

/-! ### The translator and the address adder (R36, R37, R84) -/

/-- The translator drops bits 15 to 7 (R37). -/
theorem tr_eq_lowBits (a : Word) : tr a = (a.extractLsb' 0 7).setWidth 16 := by
  apply BitVec.eq_of_toNat_eq
  have kept : (a.extractLsb' 0 7).toNat = a.toNat % 128 := by simp
  rw [tr_toNat, BitVec.toNat_setWidth_of_le (by decide), kept]

/-- The address adder is the translator of the 16-bit sum (R84). -/
theorem effective_eq_tr_add (a b : Word) : effective a b = tr (a + b) := rfl

/-- Settles O26: the sum modulo 65536 is, modulo 128, the exact sum. -/
theorem translatorKeepsTheLowSevenBits : Obligations.TranslatorKeepsTheLowSevenBits := by
  intro a b
  have sum := effective_toNat a b
  exact ⟨tr_toNat a, tr_eq_lowBits a, by rwa [← effective_eq_tr_add], sum⟩

/-! ### A read after a write (R41, R46) -/

theorem State.memRead_memWrite (s : State) (a b v : Word) :
    (s.memWrite a v).memRead b = if b.toNat % 128 = a.toNat % 128 then v else s.memRead b := by
  rw [State.memRead_eq, State.memWrite_get, State.memRead_eq]

/-- Settles O28: the two cases of `State.memRead_memWrite`. -/
theorem readAfterWriteSeesTheWord : Obligations.ReadAfterWriteSeesTheWord := by
  intro s a b v
  rw [State.memRead_memWrite]
  exact ⟨fun same => if_pos same, fun other => if_neg other⟩

/-! ### The fetch of a stored word (R49) -/

/-- A transaction runs the word that stands at its address once the host's access has taken effect (R74, R76, R78). -/
theorem step_of_request {s : State} {e : Edge} {rest : List Edge} {a : Word} (hin : s.inputs = e :: rest)
    (hrst : e.rst = false) (hreq : e.req = some a) :
    step s = exec (decode (Memory.get (s.hostAccess e.host).mem (a.toNat % 128)))
      ((s.takeEdge rest).hostAccess e.host).complete := by
  have fetched : ((s.takeEdge rest).hostAccess e.host).fetch a =
      Memory.get (s.hostAccess e.host).mem (a.toNat % 128) := by
    rw [State.fetch, State.memRead_eq, State.hostAccess_takeEdge_mem]
  simp [step, hin, hrst, hreq, fetched]

/-- A request with no host access runs the word that stands at its address. -/
theorem step_of_exec {s : State} {rest : List Edge} {a : Word} (hin : s.inputs = Edge.exec a :: rest) :
    step s = exec (decode (Memory.get s.mem (a.toNat % 128))) (s.takeEdge rest).complete :=
  step_of_request (e := Edge.exec a) hin rfl rfl

theorem exec_st (sr : RegIx) (offset9 : BitVec 9) (s : State) :
    exec (.st sr offset9) s = .next (s.memWrite (pcRel s.pc offset9) s.x[sr]) := rfl

/-- The word ST stores reads back at the index its address translates to (R104). -/
theorem get_memWrite_pcRel (s : State) (offset9 : BitVec 9) (v : Word) :
    Memory.get (s.memWrite (pcRel s.pc offset9) v).mem ((s.pc.toNat + offset9.toNat) % 128) = v := by
  rw [State.memWrite_mem, tr_pcRel (by decide), Memory.get_set_same]

/-- A request for an ST leaves the register's value at the index ST stores to, and keeps the pc, the flag and the
registers (R104). -/
theorem step_of_exec_st {s : State} {rest : List Edge} {a : Word} {sr : RegIx} {offset9 : BitVec 9}
    (hin : s.inputs = Edge.exec a :: rest) (hst : decode (Memory.get s.mem (a.toNat % 128)) = .st sr offset9) :
    ∃ t : State, step s = .next t ∧ Memory.get t.mem ((s.pc.toNat + offset9.toNat) % 128) = s.x[sr] ∧
      t.pc = s.pc ∧ t.flag = s.flag ∧ t.x = s.x ∧ t.inputs = rest := by
  have run : step s = .next ((s.takeEdge rest).complete.memWrite (pcRel s.pc offset9) s.x[sr]) := by
    rw [step_of_exec hin, hst]
    exact exec_st sr offset9 _
  exact ⟨_, run, get_memWrite_pcRel (s.takeEdge rest).complete offset9 _, rfl, rfl, rfl, rfl⟩

/-- Settles O47. The first step's word is read before its store, so that it is ST whatever it stores over; the second
step's word is read from the memory the first one left, where the register's value stands. -/
theorem laterFetchSeesTheStoredWord : Obligations.LaterFetchSeesTheStoredWord := by
  intro s a b rest sr offset9 hin hst hb
  obtain ⟨t, first, stored, hpc, hflag, hx, hin'⟩ := step_of_exec_st hin hst
  rw [← hb] at stored
  have second : step t = exec (decode s.x[sr]) (t.takeEdge rest).complete := by rw [step_of_exec hin', stored]
  exact ⟨t, (t.takeEdge rest).complete, first, stored, second, hpc, hflag, hx, rfl, rfl⟩

end Sys2Proof.Machine

/-! ## The encoding: fields and their places, decode and encode, the opcode map, the assembler (30_encoding.md) -/

namespace Sys2Proof

/-! ### A field and its place in the word (R54) -/

/-- A placed field, read back at its place. -/
@[simp] theorem extractLsb'_place {n : Nat} (lo : Nat) (v : BitVec n) (h : lo + n ≤ 16) :
    (place lo v).extractLsb' lo n = v := by
  apply BitVec.eq_of_getElem_eq
  intro i hi
  simp [BitVec.getLsbD_eq_getElem (show lo + i < 16 by omega), BitVec.getLsbD_eq_getElem hi]

/-- A placed field, read where another field stands. -/
@[simp] theorem extractLsb'_place_disjoint {n : Nat} (lo lo' k : Nat) (v : BitVec n) (hk : lo' + k ≤ 16)
    (h : lo + n ≤ lo' ∨ lo' + k ≤ lo) : (place lo v).extractLsb' lo' k = 0 := by
  apply BitVec.eq_of_getElem_eq
  intro i hi
  simp only [BitVec.getElem_extractLsb', BitVec.getLsbD_eq_getElem (show lo' + i < 16 by omega), getElem_place]
  rcases h with below | above
  · simp [BitVec.getLsbD_of_ge v (lo' + i - lo) (by omega)]
  · simp [show ¬ lo ≤ lo' + i by omega]

/-- A field of a word, put back at its place: the word, cleared outside the field. -/
theorem place_extractLsb' (lo n : Nat) (w : Word) :
    place lo (w.extractLsb' lo n) = w &&& place lo (BitVec.allOnes n) := by
  apply BitVec.eq_of_getElem_eq
  intro i hi
  by_cases h : lo ≤ i
  · simp [h, Bool.and_comm, BitVec.getLsbD_eq_getElem hi]
  · simp [h]

/-- The field of one bit is the bit. -/
theorem place_getElem (w : Word) (i : Nat) (hi : i < 16) :
    place i (BitVec.ofBool w[i]) = w &&& place i (BitVec.allOnes 1) := by
  have bit : BitVec.ofBool w[i] = w.extractLsb' i 1 := by
    apply BitVec.eq_of_getElem_eq
    intro j hj
    obtain rfl : j = 0 := by omega
    simp [BitVec.getLsbD_eq_getElem hi]
  rw [bit, place_extractLsb']

/-! The fields of R54 put back at their places, the mask of each as a numeral. -/

theorem place_fieldDr (w : Word) : place 9 (regBits (fieldDr w)) = w &&& 0x0E00 := place_extractLsb' 9 3 w
theorem place_fieldSr1 (w : Word) : place 6 (regBits (fieldSr1 w)) = w &&& 0x01C0 := place_extractLsb' 6 3 w
theorem place_fieldSr2 (w : Word) : place 0 (regBits (fieldSr2 w)) = w &&& 0x0007 := place_extractLsb' 0 3 w
theorem place_fieldBase (w : Word) : place 6 (fieldBase w) = w &&& 0x01C0 := place_extractLsb' 6 3 w
theorem place_fieldImm (w : Word) : place 5 (BitVec.ofBool (fieldImm w)) = w &&& 0x0020 :=
  place_getElem w 5 (by decide)
theorem place_fieldImm5 (w : Word) : place 0 (fieldImm5 w) = w &&& 0x001F := place_extractLsb' 0 5 w
theorem place_fieldOffset6 (w : Word) : place 0 (fieldOffset6 w) = w &&& 0x003F := place_extractLsb' 0 6 w
theorem place_fieldOffset9 (w : Word) : place 0 (fieldOffset9 w) = w &&& 0x01FF := place_extractLsb' 0 9 w
theorem place_fieldOffset11 (w : Word) : place 0 (fieldOffset11 w) = w &&& 0x07FF := place_extractLsb' 0 11 w
theorem place_fieldJmode (w : Word) : place 11 (BitVec.ofBool (fieldJmode w)) = w &&& 0x0800 :=
  place_getElem w 11 (by decide)
theorem place_fieldPayload (w : Word) : place 0 (fieldPayload w) = w &&& 0x0FFF := place_extractLsb' 0 12 w

/-! The enable bits of BR (R55). -/

theorem place_enableN (w : Word) : place 11 (BitVec.ofBool w[11]) = w &&& 0x0800 := place_getElem w 11 (by decide)
theorem place_enableZ (w : Word) : place 10 (BitVec.ofBool w[10]) = w &&& 0x0400 := place_getElem w 10 (by decide)
theorem place_enableP (w : Word) : place 9 (BitVec.ofBool w[9]) = w &&& 0x0200 := place_getElem w 9 (by decide)

/-! ### The opcode as a number (R53, decision D1) -/

/-- The number in bits 15–12 of an opcode's words. -/
def Opcode.number : Opcode → BitVec 4
  | .branch => 0b0000#4
  | .add => 0b0001#4
  | .load => 0b0010#4
  | .store => 0b0011#4
  | .jumpToSubroutine => 0b0100#4
  | .and => 0b0101#4
  | .loadRegister => 0b0110#4
  | .storeRegister => 0b0111#4
  | .lookup => 0b1000#4
  | .not => 0b1001#4
  | .loadIndirect => 0b1010#4
  | .storeIndirect => 0b1011#4
  | .jump => 0b1100#4
  | .broadcastSet => 0b1101#4
  | .loadEffectiveAddress => 0b1110#4
  | .sendAccept => 0b1111#4

theorem number_opcodeOfBits (b : BitVec 4) : (opcodeOfBits b[3] b[2] b[1] b[0]).number = b := by
  revert b
  decide

theorem opcodeOfBits_number (o : Opcode) : opcodeOfBits o.number[3] o.number[2] o.number[1] o.number[0] = o := by
  cases o <;> rfl

theorem Opcode.number_injective : Function.Injective Opcode.number := by
  intro o o' h
  rw [← opcodeOfBits_number o, h, opcodeOfBits_number]

theorem number_opcodeOf (w : Word) : (opcodeOf w).number = w.extractLsb' 12 4 := by
  have bits : opcodeOf w = opcodeOfBits (w.extractLsb' 12 4)[3] (w.extractLsb' 12 4)[2] (w.extractLsb' 12 4)[1]
      (w.extractLsb' 12 4)[0] := by simp [opcodeOf, BitVec.getLsbD_eq_getElem]
  rw [bits, number_opcodeOfBits]

theorem opcodeOf_eq_iff_field (w : Word) (o : Opcode) : opcodeOf w = o ↔ w.extractLsb' 12 4 = o.number := by
  rw [← number_opcodeOf, Opcode.number_injective.eq_iff]

theorem opcodeOf_eq_iff_div (w : Word) (o : Opcode) : opcodeOf w = o ↔ w.toNat / 4096 = o.number.toNat := by
  have field : (w.extractLsb' 12 4).toNat = w.toNat / 4096 % 16 := by simp [Nat.shiftRight_eq_div_pow]
  have := w.isLt
  rw [opcodeOf_eq_iff_field, ← BitVec.toNat_inj, field, Nat.mod_eq_of_lt (by omega)]

theorem place_number_opcodeOf (w : Word) : place 12 (opcodeOf w).number = w &&& 0xF000 := by
  rw [number_opcodeOf]
  exact place_extractLsb' 12 4 w

/-! ### Decode of encode -/

/-- The opcode of an instruction's words (R55 to R64). -/
def Instr.opcode : Instr → Opcode
  | .br _ _ _ _ => .branch
  | .addReg _ _ _ | .addImm _ _ _ => .add
  | .ld _ _ => .load
  | .st _ _ => .store
  | .jsrr _ | .jsr _ => .jumpToSubroutine
  | .andReg _ _ _ | .andImm _ _ _ => .and
  | .ldr _ _ _ => .loadRegister
  | .str _ _ _ => .storeRegister
  | .lookup _ => .lookup
  | .not _ _ => .not
  | .ldi _ _ => .loadIndirect
  | .sti _ _ => .storeIndirect
  | .jmp _ => .jump
  | .bset _ => .broadcastSet
  | .lea _ _ => .loadEffectiveAddress
  | .sendacc _ => .sendAccept

/-- Every format writes its opcode's number to bits 15–12 and all its other fields below them. -/
theorem opcodeOf_encode (i : Instr) : opcodeOf (encode i) = i.opcode := by
  rw [opcodeOf_eq_iff_field]
  cases i <;> simp [encode, Instr.opcode, Opcode.number, BitVec.extractLsb'_or]

@[simp] theorem toFin_regBits (r : RegIx) : (regBits r).toFin = r := rfl

/-- The opcode chooses the format, and each field that the decoder reads at its place is the one that the encoder placed
there (`extractLsb'_place`): no other field reaches it (`extractLsb'_place_disjoint`). -/
theorem decode_encode (i : Instr) : decode (encode i) = i := by
  rw [decode, opcodeOf_encode]
  cases i with
  | br n z p o => simp [Instr.opcode, encode, fieldOffset9, BitVec.extractLsb'_or]
  | addReg dr sr1 sr2 | andReg dr sr1 sr2 =>
    simp [Instr.opcode, encode, fieldImm, fieldDr, fieldSr1, fieldSr2, BitVec.extractLsb'_or]
  | addImm dr sr1 imm5 | andImm dr sr1 imm5 =>
    simp [Instr.opcode, encode, fieldImm, fieldDr, fieldSr1, fieldImm5, BitVec.extractLsb'_or]
  | ld r o | st r o | ldi r o | sti r o | lea r o =>
    simp [Instr.opcode, encode, fieldDr, fieldOffset9, BitVec.extractLsb'_or]
  | jsrr b => simp [Instr.opcode, encode, fieldJmode, fieldBase, BitVec.extractLsb'_or]
  | jsr o => simp [Instr.opcode, encode, fieldJmode, fieldOffset11, BitVec.extractLsb'_or]
  | ldr r b o | str r b o => simp [Instr.opcode, encode, fieldDr, fieldBase, fieldOffset6, BitVec.extractLsb'_or]
  | not dr sr1 => simp [Instr.opcode, encode, fieldDr, fieldSr1, BitVec.extractLsb'_or]
  | jmp b => simp [Instr.opcode, encode, fieldBase, BitVec.extractLsb'_or]
  | lookup q | bset q | sendacc q => simp [Instr.opcode, encode, fieldPayload, BitVec.extractLsb'_or]

/-- Settles O21, field by field (`decode_encode`). -/
theorem decodingAnEncodedInstructionGivesItBack : Obligations.DecodingAnEncodedInstructionGivesItBack := decode_encode

/-! ### Encode of decode -/

/-- Each field put back is the word under the field's mask, and the masks of a format join to the bits it uses. The
choosing bits `imm` and `jmode` are put back as the constants that the chosen format writes (R70). -/
theorem encode_decode (w : Word) : encode (decode w) = w &&& usedBits (decode w) := by
  have code := place_number_opcodeOf w
  have imm := place_fieldImm w
  have jmode := place_fieldJmode w
  unfold decode
  generalize opcodeOf w = o at code
  generalize fieldImm w = b at imm
  generalize fieldJmode w = j at jmode
  cases o with dsimp only [Opcode.number] at code
  | branch =>
    simp [encode, usedBits, code, place_enableN, place_enableZ, place_enableP, place_fieldOffset9,
      ← BitVec.and_or_distrib_left]
  | add | and =>
    cases b with
    | true =>
      have bit : place 5 0b1#1 = w &&& 0x0020 := imm
      simp [encode, usedBits, code, bit, place_fieldDr, place_fieldSr1, place_fieldImm5, ← BitVec.and_or_distrib_left]
    | false =>
      have bit : place 5 0b0#1 = w &&& 0x0020 := imm
      simp [encode, usedBits, code, bit, place_fieldDr, place_fieldSr1, place_fieldSr2, ← BitVec.and_or_distrib_left]
  | jumpToSubroutine =>
    cases j with
    | true =>
      have bit : place 11 0b1#1 = w &&& 0x0800 := jmode
      simp [encode, usedBits, code, bit, place_fieldOffset11, ← BitVec.and_or_distrib_left]
    | false =>
      have bit : place 11 0b0#1 = w &&& 0x0800 := jmode
      simp [encode, usedBits, code, bit, place_fieldBase, ← BitVec.and_or_distrib_left]
  | load | store | loadIndirect | storeIndirect | loadEffectiveAddress =>
    simp [encode, usedBits, code, place_fieldDr, place_fieldOffset9, ← BitVec.and_or_distrib_left]
  | loadRegister | storeRegister =>
    simp [encode, usedBits, code, place_fieldDr, place_fieldBase, place_fieldOffset6, ← BitVec.and_or_distrib_left]
  | not => simp [encode, usedBits, code, place_fieldDr, place_fieldSr1, ← BitVec.and_or_distrib_left]
  | jump => simp [encode, usedBits, code, place_fieldBase, ← BitVec.and_or_distrib_left]
  | lookup | broadcastSet | sendAccept =>
    simp [encode, usedBits, code, place_fieldPayload, ← BitVec.and_or_distrib_left]

/-- Settles O22, by the opcode and the choosing bit (`encode_decode`). -/
theorem encodingADecodedWordKeepsItsUsedBits : Obligations.EncodingADecodedWordKeepsItsUsedBits := encode_decode

/-! ### The opcode map (R73) -/

theorem encode_matches_mapRow (i : Instr) : encode i &&& (mapRow i).mask = (mapRow i).pattern := by
  cases i with
  | br => exact Laws.EncodesItsRow.br ..
  | addReg => exact Laws.EncodesItsRow.addReg ..
  | addImm => exact Laws.EncodesItsRow.addImm ..
  | ld => exact Laws.EncodesItsRow.ld ..
  | st => exact Laws.EncodesItsRow.st ..
  | jsrr => exact Laws.EncodesItsRow.jsrr ..
  | jsr => exact Laws.EncodesItsRow.jsr ..
  | andReg => exact Laws.EncodesItsRow.andReg ..
  | andImm => exact Laws.EncodesItsRow.andImm ..
  | ldr => exact Laws.EncodesItsRow.ldr ..
  | str => exact Laws.EncodesItsRow.str ..
  | lookup => exact Laws.EncodesItsRow.lookup ..
  | not => exact Laws.EncodesItsRow.not ..
  | ldi => exact Laws.EncodesItsRow.ldi ..
  | sti => exact Laws.EncodesItsRow.sti ..
  | jmp => exact Laws.EncodesItsRow.jmp ..
  | bset => exact Laws.EncodesItsRow.bset ..
  | lea => exact Laws.EncodesItsRow.lea ..
  | sendacc => exact Laws.EncodesItsRow.sendacc ..

/-- A row tests used bits only. -/
theorem usedBits_and_mask (i : Instr) : usedBits i &&& (mapRow i).mask = (mapRow i).mask := by
  cases i <;> simp only [usedBits, mapRow] <;> decide

theorem mapRow_mem_opcodeMap (i : Instr) : mapRow i ∈ opcodeMap := by
  cases i <;> simp [opcodeMap, mapRow]

/-- A word that agrees with an instruction's word on the bits its format uses matches the instruction's row. -/
theorem matches_mapRow_of_usedBits {w : Word} {i : Instr} (h : w &&& usedBits i = encode i) :
    w &&& (mapRow i).mask = (mapRow i).pattern := by
  calc w &&& (mapRow i).mask
      _ = w &&& (usedBits i &&& (mapRow i).mask) := by rw [usedBits_and_mask]
      _ = encode i &&& (mapRow i).mask := by rw [← BitVec.and_assoc, h]
      _ = (mapRow i).pattern := encode_matches_mapRow i

theorem decode_matches_mapRow (w : Word) : w &&& (mapRow (decode w)).mask = (mapRow (decode w)).pattern :=
  matches_mapRow_of_usedBits (encode_decode w).symm

/-- Two rows ask for different values of a bit that both test. -/
def MapRow.Apart (r r' : MapRow) : Prop := r.pattern &&& r'.mask ≠ r'.pattern &&& r.mask

theorem MapRow.not_apart_of_matches {r r' : MapRow} {w : Word} (h : w &&& r.mask = r.pattern)
    (h' : w &&& r'.mask = r'.pattern) : ¬ r.Apart r' := by
  rw [MapRow.Apart, ← h, ← h', not_not, BitVec.and_assoc, BitVec.and_assoc, BitVec.and_comm r.mask]

theorem opcodeMap_pairwise_apart : opcodeMap.Pairwise MapRow.Apart := by
  unfold MapRow.Apart
  decide

theorem eq_of_matches {w : Word} {r r' : MapRow} (hr : r ∈ opcodeMap) (hr' : r' ∈ opcodeMap)
    (h : w &&& r.mask = r.pattern) (h' : w &&& r'.mask = r'.pattern) : r = r' := by
  have symm : Std.Symm MapRow.Apart := ⟨fun _ _ => Ne.symm⟩
  by_contra hne
  exact MapRow.not_apart_of_matches h h' (opcodeMap_pairwise_apart.forall hr hr' hne)

/-- Settles O20: a word matches the row of its instruction, and no second row, since any two rows are apart. -/
theorem everyWordMatchesExactlyOneRow : Obligations.EveryWordMatchesExactlyOneRow := by
  refine ⟨rfl, fun w => ?_⟩
  have mem := mapRow_mem_opcodeMap (decode w)
  have hit := decode_matches_mapRow w
  exact ⟨⟨_, ⟨mem, hit⟩, fun r ⟨hr, h⟩ => eq_of_matches hr mem h hit⟩, mem, hit⟩

/-! ### The ignored bits (R67, decision D4) -/

/-- The bits that the format of a row uses, by the row's pattern (R55 to R64). -/
def MapRow.used (r : MapRow) : Word :=
  match r.pattern.toNat with
  | 0x1000 | 0x5000 => 0xFFE7
  | 0x4000 => 0xF9C0
  | 0x9000 => 0xFFC0
  | 0xC000 => 0xF1C0
  | _ => 0xFFFF

theorem usedBits_eq_used (i : Instr) : usedBits i = (mapRow i).used := by
  cases i <;> rfl

theorem decode_eq_of_usedBits {w v : Word}
    (agree : w &&& usedBits (decode w) = v &&& usedBits (decode w)) : decode v = decode w := by
  have same : v &&& usedBits (decode w) = encode (decode w) := by rw [encode_decode, agree]
  have row : mapRow (decode v) = mapRow (decode w) :=
    eq_of_matches (mapRow_mem_opcodeMap _) (mapRow_mem_opcodeMap _) (decode_matches_mapRow v)
      (matches_mapRow_of_usedBits same)
  have used : usedBits (decode v) = usedBits (decode w) := by rw [usedBits_eq_used, row, ← usedBits_eq_used]
  calc decode v = decode (encode (decode v)) := (decode_encode _).symm
    _ = decode (encode (decode w)) := by rw [encode_decode v, used, same]
    _ = decode w := decode_encode _

/-- Settles O23: the two words match one row, so that their formats use the same bits, and the words with the other bits
cleared are one word (`encode_decode`), which decodes to both instructions (`decode_encode`). -/
theorem ignoredBitsDoNotChangeTheInstruction : Obligations.IgnoredBitsDoNotChangeTheInstruction :=
  fun _ _ => decode_eq_of_usedBits

/-! ### Written words (R57, R91, R111) -/

/-- Settles O24: six closed decodings. -/
theorem writtenWordsDecodeToTheirInstructions : Obligations.WrittenWordsDecodeToTheirInstructions := by
  unfold Obligations.WrittenWordsDecodeToTheirInstructions
  decide

/-! ### The assembler (R71, R72) -/

@[simp] theorem isReg_iff (n : Nat) : isReg n = true ↔ n < 8 := decide_eq_true_iff

@[simp] theorem fitsField_iff (width n : Nat) : fitsField width n = true ↔ n < 2 ^ width := decide_eq_true_iff

/-- A number in its field's range is the number its field holds. -/
theorem toNat_ofNat_of_fits {width n : Nat} (h : n < 2 ^ width) : (BitVec.ofNat width n).toNat = n :=
  (BitVec.toNat_ofNat n width).trans (Nat.mod_eq_of_lt h)

theorem val_ofNat_of_isReg {n : Nat} (h : n < 8) : (Fin.ofNat 8 n).val = n := Nat.mod_eq_of_lt h

theorem Line.assemble_of_wellFormed {l : Line} (h : l.wellFormed = true) : l.assemble = some l.word := if_pos h

theorem Line.assemble_of_not_wellFormed {l : Line} (h : l.wellFormed = false) : l.assemble = none :=
  if_neg (Bool.eq_false_iff.mp h)

/-- What a form assembles to, within the bounds of its fields and outside them. -/
theorem Line.assemble_cases {l : Line} {bounds operands : Prop} [Decidable bounds]
    (hwf : l.wellFormed = true ↔ bounds) (h : bounds → l.assemble = some l.word → operands) :
    if bounds then operands else l.assemble = none := by
  split
  · next within => exact h within (Line.assemble_of_wellFormed (hwf.mpr within))
  · next outside => exact if_neg (mt hwf.mp outside)

/-- Settles O25, one case for each list of fields: within the bounds the word is the encoding of the numbers written,
and decoding it gives them back (`decode_encode`). -/
theorem assembledLinesDecodeToTheirOperands : Obligations.AssembledLinesDecodeToTheirOperands := by
  refine ⟨fun _ => Line.assemble_of_not_wellFormed, fun l => ?_⟩
  cases l with dsimp only
  | br n z p off9 =>
    exact Line.assemble_cases (by simp [Line.wellFormed]) fun ho asm =>
      ⟨_, _, asm, decode_encode _, toNat_ofNat_of_fits ho⟩
  | add rd rs1 rs2 | and rd rs1 rs2 =>
    exact Line.assemble_cases (by simp [Line.wellFormed, and_assoc]) fun ⟨hd, ha, hb⟩ asm =>
      ⟨_, _, _, _, asm, decode_encode _, val_ofNat_of_isReg hd, val_ofNat_of_isReg ha, val_ofNat_of_isReg hb⟩
  | addLit rd rs1 imm5 | andLit rd rs1 imm5 =>
    exact Line.assemble_cases (by simp [Line.wellFormed, and_assoc]) fun ⟨hd, ha, ho⟩ asm =>
      ⟨_, _, _, _, asm, decode_encode _, val_ofNat_of_isReg hd, val_ofNat_of_isReg ha, toNat_ofNat_of_fits ho⟩
  | not rd rs =>
    exact Line.assemble_cases (by simp [Line.wellFormed]) fun ⟨hd, ha⟩ asm =>
      ⟨_, _, _, asm, decode_encode _, val_ofNat_of_isReg hd, val_ofNat_of_isReg ha⟩
  | ld r off9 | st r off9 | ldi r off9 | sti r off9 | lea r off9 =>
    exact Line.assemble_cases (by simp [Line.wellFormed]) fun ⟨hr, ho⟩ asm =>
      ⟨_, _, _, asm, decode_encode _, val_ofNat_of_isReg hr, toNat_ofNat_of_fits ho⟩
  | ldr r base off6 | str r base off6 =>
    exact Line.assemble_cases (by simp [Line.wellFormed, and_assoc]) fun ⟨hr, hb, ho⟩ asm =>
      ⟨_, _, _, _, asm, decode_encode _, val_ofNat_of_isReg hr, toNat_ofNat_of_fits hb, toNat_ofNat_of_fits ho⟩
  | jsr m | jsrr m | jmp m | lookup m | bset m | sendacc m =>
    exact Line.assemble_cases (by simp [Line.wellFormed]) fun hm asm =>
      ⟨_, _, asm, decode_encode _, toNat_ofNat_of_fits hm⟩
  | nop => rfl
  | fill v => exact Line.assemble_cases (by simp [Line.wellFormed]) fun hv asm => ⟨_, asm, toNat_ofNat_of_fits hv⟩

/-! ### The words that act as no-ops (R69) -/

theorem decode_of_branch {w : Word} (h : opcodeOf w = .branch) :
    decode w = .br w[11] w[10] w[9] (fieldOffset9 w) := by rw [decode, h]

theorem decode_of_lookup {w : Word} (h : opcodeOf w = .lookup) : decode w = .lookup (fieldPayload w) := by
  rw [decode, h]

theorem decode_of_broadcastSet {w : Word} (h : opcodeOf w = .broadcastSet) : decode w = .bset (fieldPayload w) := by
  rw [decode, h]

theorem decode_of_sendAccept {w : Word} (h : opcodeOf w = .sendAccept) : decode w = .sendacc (fieldPayload w) := by
  rw [decode, h]

/-- The words from 0x0000 to 0x01FF are BR with mask 0. -/
theorem decode_of_lt_512 {w : Word} (h : w.toNat < 512) : decode w = .br false false false (fieldOffset9 w) := by
  have clear (k : Nat) (hk : k < 16) (h9 : 9 ≤ k) : w[k] = false := by
    rw [BitVec.getElem_eq_testBit_toNat]
    exact Nat.testBit_lt_two_pow (h.trans_le (Nat.pow_le_pow_right (n := 2) (by decide) h9))
  have op : opcodeOf w = .branch := (opcodeOf_eq_iff_div w .branch).mpr (Nat.div_eq_of_lt (by omega))
  rw [decode_of_branch op, clear 11 (by decide) (by decide), clear 10 (by decide) (by decide),
    clear 9 (by decide) (by decide)]

end Sys2Proof

namespace Sys2Proof.Machine

/-- An instruction for which the tables list no register, no store and no pc leaves the Cell as it was. -/
theorem exec_cellKept {i : Instr} {s : State} (hreg : regDest i = none) (hstore : storeIndex i s = none)
    (hpc : writesPc i s.flag = false) : ∃ t, exec i s = .next t ∧ CellKept s t := by
  obtain ⟨t, ht, effect⟩ := exec_next_listedEffect i s
  refine ⟨t, ht, ?_⟩
  cases effect with
  | nothing | pulse => exact ⟨rfl, rfl, rfl, fun _ => rfl⟩
  | dest _ _ listed | link _ listed => simp [hreg] at listed
  | store _ _ _ _ listed => simp [hstore] at listed
  | jump _ _ _ _ listed => simp [hpc] at listed

/-- A mask with no enable bit holds under no flag. -/
theorem writesPc_br_of_mask_zero (offset9 : BitVec 9) (f : CondFlag) :
    writesPc (.br false false false offset9) f = false := by
  cases f <;> rfl

/-- Settles O19: for none of these words do the tables list a write (`exec_cellKept`), and memory after reset
reads 0. -/
theorem noOpWordsChangeNothing : Obligations.NoOpWordsChangeNothing := by
  refine ⟨fun w s h => ?_, fun a => ?_⟩
  · rcases h with low | eight | thirteen | fifteen
    · rw [decode_of_lt_512 low]
      exact exec_cellKept rfl rfl (writesPc_br_of_mask_zero _ _)
    · rw [decode_of_lookup ((opcodeOf_eq_iff_div w .lookup).mpr eight)]
      exact exec_cellKept rfl rfl rfl
    · rw [decode_of_broadcastSet ((opcodeOf_eq_iff_div w .broadcastSet).mpr thirteen)]
      exact exec_cellKept rfl rfl rfl
    · rw [decode_of_sendAccept ((opcodeOf_eq_iff_div w .sendAccept).mpr fifteen)]
      exact exec_cellKept rfl rfl rfl
  · have unwritten : Memory.get State.reset.mem a = 0 := Memory.get_nil a
    rw [unwritten]
    decide

end Sys2Proof.Machine

/-! ## The engine: steps and runs, the host port, the shared units and the extension hook (40_engine.md) -/

namespace Sys2Proof.Machine

/-! ### What a step does at each kind of edge (R74 to R77), and that it always goes on (R90) -/

theorem step_of_no_edge {s : State} (hin : s.inputs = []) : step s = .next s.idle := by
  simp [step, hin]

theorem step_of_reset {s : State} {e : Edge} {rest : List Edge} (hin : s.inputs = e :: rest) (hrst : e.rst = true) :
    step s = .next (s.takeEdge rest).resetBlock := by
  simp [step, hin, hrst]

theorem step_of_no_request {s : State} {e : Edge} {rest : List Edge} (hin : s.inputs = e :: rest)
    (hrst : e.rst = false) (hreq : e.req = none) : step s = .next ((s.takeEdge rest).hostAccess e.host) := by
  simp [step, hin, hrst, hreq]

theorem exec_next (i : Instr) (s : State) : ∃ t : State, exec i s = .next t := by
  obtain ⟨t, ht, -⟩ := exec_next_listedEffect i s
  exact ⟨t, ht⟩

theorem step_next (s : State) : ∃ t : State, step s = .next t := by
  rcases hin : s.inputs with _ | ⟨e, rest⟩
  · exact ⟨_, step_of_no_edge hin⟩
  · cases hrst : e.rst with
    | true => exact ⟨_, step_of_reset hin hrst⟩
    | false =>
      cases hreq : e.req with
      | none => exact ⟨_, step_of_no_request hin hrst hreq⟩
      | some a =>
        rw [step_of_request hin hrst hreq]
        exact exec_next _ _

/-- Settles O50: an instruction by the effect the tables list for it (`exec_next_listedEffect`), a step by its edge. -/
theorem everyInstructionAndStepAnswersNext : Obligations.EveryInstructionAndStepAnswersNext := ⟨exec_next, step_next⟩

/-! ### Runs (R90, R134) -/

theorem core_run_succ_of_next {s t : State} (h : step s = .next t) (k : Nat) :
    Sys2Proof.core.run (k + 1) s = Sys2Proof.core.run k t := by
  rw [core_run_succ, h]

/-- Settles O51, by induction on the number of steps: the first step answers a next state, which meets the invariant
again, and the rest of the run starts there. -/
theorem everyRunGoesOnSafely : Obligations.EveryRunGoesOnSafely := by
  intro k
  induction k with
  | zero => exact fun s hs => ⟨s, rfl, hs⟩
  | succ k ih =>
    intro s hs
    obtain ⟨t, ht⟩ := step_next s
    obtain ⟨u, hrun, hu⟩ := ih t (step_keeps_inv hs ht)
    exact ⟨u, (core_run_succ_of_next ht k).trans hrun, hu⟩

/-! ### The host's access and the request (R76, R78, R116) -/

/-- Settles O38: the state the instruction runs on is the one after the host's access, with the completion pulse on
(`step_of_request`). -/
theorem transactionRunsTheFetchedInstruction : Obligations.TransactionRunsTheFetchedInstruction := by
  intro s e rest address hin hrst hreq
  refine ⟨((s.takeEdge rest).hostAccess e.host).complete, ?_, by simp, by simp, by simp, by simp, ?_, fun b => ?_⟩
  · rw [step_of_request hin hrst hreq, State.complete_mem, State.hostAccess_takeEdge_mem]
  · simp [Outputs.quiet]
  · exact State.hostAccess_get (s.takeEdge rest) e.host b

/-- Settles O40: without a request the host's access is all that the edge does (`step_of_no_request`). -/
theorem hostAccessWritesAtMostOneWord : Obligations.HostAccessWritesAtMostOneWord := by
  intro s h rest hin
  exact ⟨_, step_of_no_request hin rfl rfl, by simp, by simp, by simp, by simp [Outputs.quiet], by simp,
    State.hostAccess_get (s.takeEdge rest) h⟩

/-- Settles O39: the address enters a transaction only as the index modulo 128 of the fetch (`step_of_exec`). -/
theorem fetchAddressesCongruentModulo128AreOne : Obligations.FetchAddressesCongruentModulo128AreOne := by
  intro s a b rest hab
  have request (c : Word) : step { s with inputs := Edge.exec c :: rest } =
      exec (decode (Memory.get s.mem (c.toNat % 128))) (s.takeEdge rest).complete := step_of_exec rfl
  rw [request a, request b, hab]

/-- Settles O41: after the load's own step the request finds the memory that it finds after the load of its own edge. -/
theorem loadAtTheSameEdgeGoesFirst : Obligations.LoadAtTheSameEdgeGoesFirst := by
  intro s a v address rest
  have load : step { s with inputs := Edge.load a v :: Edge.exec address :: rest } =
      .next ((s.takeEdge (Edge.exec address :: rest)).memWrite a v) :=
    step_of_no_request (e := Edge.load a v) rfl rfl rfl
  have request : step ((s.takeEdge (Edge.exec address :: rest)).memWrite a v) =
      exec (decode (Memory.get (s.memWrite a v).mem (address.toNat % 128)))
        ((s.takeEdge rest).memWrite a v).complete := step_of_exec rfl
  have both : step { s with inputs := Edge.loadExec a v address :: rest } =
      exec (decode (Memory.get (s.memWrite a v).mem (address.toNat % 128)))
        ((s.takeEdge rest).memWrite a v).complete := step_of_request (e := Edge.loadExec a v address) rfl rfl rfl
  rw [core_run_succ_of_next load, core_run_succ, core_run_succ, both, request]

/-! ### The output ports (R24, R75) -/

theorem CondFlag.oneHot_injective : Function.Injective CondFlag.oneHot := by
  intro f g h
  cases f <;> cases g <;> revert h <;> decide

/-- Settles O46: each port shows one field, the flag in a code that tells its three values apart, and the addressed word
through the translator. -/
theorem portsShowTheState : Obligations.PortsShowTheState := by
  intro s a
  have code (f : CondFlag) : (s.ports a).obsFlag = f.oneHot ↔ s.flag = f := CondFlag.oneHot_injective.eq_iff
  have pcBound (hs : s.Inv) : (s.ports a).obsPc.toNat < 128 := by
    obtain ⟨hpc, -⟩ := hs
    exact hpc
  exact ⟨rfl, pcBound, code .N, code .Z, code .P, rfl, State.memRead_eq s a, rfl, rfl, Option.isSome_iff_exists, rfl⟩

/-! ### The condition-flag tracker (R85, R86) -/

/-- The tracker's three cases as ranges of the unsigned value: bit 15 is set from 0x8000 up. -/
theorem signOf_eq_ite_toNat (v : Word) :
    signOf v = if 0x8000 ≤ v.toNat then .N else if v.toNat = 0 then .Z else .P := by
  have bit15 : v[15] = decide (0x8000 ≤ v.toNat) := by
    rw [← BitVec.msb_eq_decide v, BitVec.msb_eq_getLsbD_last]
    rfl
  have zero : v = 0 ↔ v.toNat = 0 := by rw [← BitVec.toNat_inj]; rfl
  simp only [signOf, bit15, zero, decide_eq_true_eq]

/-- A flag-setting instruction leaves the sign of the value now in its destination register: the flag is set after the
register is written. -/
theorem exec_flag_of_flagDest {i : Instr} {s t : State} (h : exec i s = .next t) {dr : RegIx}
    (hdr : flagDest i = some dr) : t.flag = signOf t.x[dr] := by
  cases exec_listedEffect h with
  | dest dr' v _ hflag =>
    obtain rfl : dr' = dr := by simpa [hflag] using hdr
    rw [State.writeDest_flag, State.writeDest_getX_same]
  | nothing _ hflag | store _ _ _ hflag | jump _ _ hflag | link _ _ hflag | pulse _ _ _ hflag => simp [hflag] at hdr

theorem exec_flag_of_flagDest_none {i : Instr} {s t : State} (h : exec i s = .next t) (hnone : flagDest i = none) :
    t.flag = s.flag := by
  cases exec_listedEffect h with
  | dest _ _ _ hflag => simp [hflag] at hnone
  | nothing | store | jump | link | pulse => rfl

/-- Settles O27: the ranges by `signOf_eq_ite_toNat`, the flag an instruction leaves by `exec_flag_of_flagDest`. -/
theorem flagTrackerSplitsTheSixteenBitRange : Obligations.FlagTrackerSplitsTheSixteenBitRange := by
  intro v
  refine ⟨?_, ?_, ?_, fun _ => rfl, fun _ _ _ _ h hdr => exec_flag_of_flagDest h hdr⟩ <;>
  · rw [signOf_eq_ite_toNat]
    split_ifs <;> simp <;> omega

/-- Settles O32: the sign of the destination's value describes it (`signOf_describes`), and no other instruction touches
the flag. -/
theorem flagIsSetByExactlyTheFlagSettingInstructions : Obligations.FlagIsSetByExactlyTheFlagSettingInstructions := by
  intro i s t h
  refine ⟨fun dr hdr => ?_, exec_flag_of_flagDest_none h⟩
  rw [exec_flag_of_flagDest h hdr]
  exact signOf_describes _

/-! ### The PC unit (R87) -/

theorem condTrue_iff (n z p : Bool) (f : CondFlag) :
    condTrue n z p f = true ↔ n = true ∧ f = .N ∨ z = true ∧ f = .Z ∨ p = true ∧ f = .P := by
  cases f <;> simp [condTrue]

/-- BR's next pc: its condition chooses between the PC-relative target and the pc as it was (R91). -/
theorem exec_br_pc {n z p : Bool} {offset9 : BitVec 9} {s t : State} (h : exec (.br n z p offset9) s = .next t) :
    t.pc.toNat =
      if n = true ∧ s.flag = .N ∨ z = true ∧ s.flag = .Z ∨ p = true ∧ s.flag = .P
      then (s.pc.toNat + offset9.toNat) % 128 else s.pc.toNat := by
  split
  · rename_i taken
    rw [exec_br_taken ((condTrue_iff ..).mpr taken)] at h
    cases h
    exact tr_pcRel (by decide) s.pc offset9
  · rename_i notTaken
    rw [exec_br_not_taken fun taken => notTaken ((condTrue_iff ..).mp taken)] at h
    cases h
    rfl

/-- Settles O30: the four instructions that write the pc by their target's address form, every other by
`exec_pc_of_not_writesPc`; the link value by `State.link_spec`. -/
theorem pcUnitComputesTheNextPc : Obligations.PcUnitComputesTheNextPc := by
  intro i s t h
  refine ⟨?_, ?_, ?_⟩
  · cases i with
    | br n z p offset9 => exact exec_br_pc h
    | jsr offset11 => cases h; exact tr_pcRel (by decide) s.pc offset11
    | jsrr base | jmp base => cases h; exact tr_zext_base base
    | addReg | addImm | andReg | andImm | not | ld | ldr | ldi | lea | st | str | sti | lookup | bset | sendacc =>
      exact congrArg BitVec.toNat (exec_pc_of_not_writesPc h rfl)
  · rintro offset11 rfl
    cases h
    obtain ⟨linked, -⟩ := State.link_spec s (pcRel s.pc offset11)
    exact linked
  · rintro base rfl
    cases h
    obtain ⟨linked, -⟩ := State.link_spec s (zext base)
    exact linked

/-! ### What an instruction writes (R89) -/

theorem exec_memKept {i : Instr} {s t : State} (h : exec i s = .next t) (hstore : storeIndex i s = none) :
    MemKept s t := by
  cases exec_listedEffect h with
  | store _ _ _ _ listed => simp [hstore] at listed
  | nothing | dest | jump | link | pulse => exact fun _ => rfl

theorem exec_memKeptBut {i : Instr} {s t : State} (h : exec i s = .next t) {a : Nat}
    (hstore : storeIndex i s = some a) : MemKeptBut a s t := by
  cases exec_listedEffect h with
  | store a' v _ _ listed =>
    obtain rfl : a = (tr a').toNat := by simpa [hstore] using listed
    exact fun b hb => Memory.get_set_other s.mem hb v
  | nothing | dest | jump | link | pulse => exact fun _ _ => rfl

theorem exec_inputs {i : Instr} {s t : State} (h : exec i s = .next t) : t.inputs = s.inputs := by
  cases exec_listedEffect h <;> rfl

/-- Settles O35: one lemma for each column of R89's table. -/
theorem eachInstructionWritesWhatTheTableLists : Obligations.EachInstructionWritesWhatTheTableLists :=
  fun _ _ _ h => ⟨fun _ => exec_x_of_ne_regDest h, exec_memKept h, fun _ => exec_memKeptBut h,
    exec_pc_of_not_writesPc h, exec_flag_of_flagDest_none h, exec_inputs h⟩

/-! ### The extension hook (R88) -/

/-- What an instruction shows on the extension hook: its opcode and word where it is a reserved one (R110 to R112). -/
def hookPulse : Instr → Option HookPulse
  | .lookup payload => some ⟨8, 8#4 ++ payload⟩
  | .bset payload => some ⟨13, 13#4 ++ payload⟩
  | .sendacc payload => some ⟨15, 15#4 ++ payload⟩
  | _ => none

/-- An instruction pulses the hook or leaves the output pulses as they were. -/
theorem exec_out {i : Instr} {s t : State} (h : exec i s = .next t) :
    t.out = { s.out with hook := (hookPulse i).or s.out.hook } := by
  cases i with
  | br n z p o =>
    simp only [exec, execBr] at h
    split at h <;> cases h <;> rfl
  | addReg | addImm | andReg | andImm | not | ld | ldr | ldi | lea | st | str | sti | jmp | jsr | jsrr | lookup | bset
    | sendacc => cases h; rfl

theorem opcode_decode (w : Word) : (decode w).opcode = opcodeOf w := by
  unfold decode
  cases opcodeOf w with
  | add | and | jumpToSubroutine => dsimp only; split <;> rfl
  | _ => rfl

/-- A word is its opcode followed by its 12 low bits (R53, R64). -/
theorem append_fieldPayload {w : Word} {op : BitVec 4} (h : w.toNat / 4096 = op.toNat) :
    (op ++ fieldPayload w : BitVec (4 + 12)) = w := by
  apply BitVec.eq_of_toNat_eq
  rw [hookWord_toNat, fieldPayload_toNat, ← h]
  omega

theorem hookPulse_decode_of_reserved {w : Word}
    (h : w.toNat / 4096 = 8 ∨ w.toNat / 4096 = 13 ∨ w.toNat / 4096 = 15) :
    hookPulse (decode w) = some ⟨BitVec.ofNat 4 (w.toNat / 4096), w⟩ := by
  rcases h with op | op | op
  · rw [decode_of_lookup ((opcodeOf_eq_iff_div w .lookup).mpr op), hookPulse, append_fieldPayload op, op]
    rfl
  · rw [decode_of_broadcastSet ((opcodeOf_eq_iff_div w .broadcastSet).mpr op), hookPulse, append_fieldPayload op, op]
    rfl
  · rw [decode_of_sendAccept ((opcodeOf_eq_iff_div w .sendAccept).mpr op), hookPulse, append_fieldPayload op, op]
    rfl

theorem hookPulse_decode_of_not_reserved {w : Word}
    (h : ¬(w.toNat / 4096 = 8 ∨ w.toNat / 4096 = 13 ∨ w.toNat / 4096 = 15)) : hookPulse (decode w) = none := by
  have op : w.toNat / 4096 = (decode w).opcode.number.toNat :=
    (opcodeOf_eq_iff_div w _).mp (opcode_decode w).symm
  rw [op] at h
  cases hi : decode w with
  | lookup | bset | sendacc => simp [hi, Instr.opcode, Opcode.number] at h
  | _ => rfl

/-- Settles O18: the request's step starts with the hook quiet, so that it ends with what its instruction shows there
(`exec_out`); a reserved word keeps the Cell by R69. -/
theorem hookReportsExactlyTheReservedWords : Obligations.HookReportsExactlyTheReservedWords := by
  intro s a rest hin w
  obtain ⟨t, ht⟩ := exec_next (decode w) (s.takeEdge rest).complete
  have out : t.out = ⟨true, hookPulse (decode w)⟩ := by simp [exec_out ht, Outputs.quiet]
  refine ⟨t, (step_of_exec hin).trans ht, by rw [out], exec_inputs ht, ?_⟩
  rw [out]
  split
  · rename_i reserved
    obtain ⟨noOps, -⟩ := noOpWordsChangeNothing
    obtain ⟨u, hu, kept⟩ := noOps w (s.takeEdge rest).complete (.inr reserved)
    obtain rfl : t = u := by simpa [ht] using hu
    exact ⟨hookPulse_decode_of_reserved reserved, kept⟩
  · exact hookPulse_decode_of_not_reserved ‹_›

end Sys2Proof.Machine

/-! ## Control transfer: BR, JSR, JSRR and JMP (41_control.md) -/

namespace Sys2Proof

/-! ### The words of the four formats (R55, R60, R61, R63, R73) -/

/-- Every row tests the four opcode bits. -/
theorem mapRow_mask_and_opcode (i : Instr) : (mapRow i).mask &&& 0xF000 = 0xF000 := by
  cases i <;> simp only [mapRow] <;> decide

/-- A word that matches the row of an instruction has that instruction's opcode. -/
theorem opcodeOf_of_matches {w : Word} (i : Instr) (h : w &&& (mapRow i).mask = (mapRow i).pattern) :
    opcodeOf w = i.opcode := by
  have code : w &&& 0xF000 = encode i &&& 0xF000 := by
    rw [← mapRow_mask_and_opcode i, ← BitVec.and_assoc, ← BitVec.and_assoc, h, encode_matches_mapRow]
  rw [← place_number_opcodeOf, ← place_number_opcodeOf, opcodeOf_encode] at code
  apply Opcode.number_injective
  simpa using congrArg (BitVec.extractLsb' 12 4) code

theorem decode_of_jump {w : Word} (h : opcodeOf w = .jump) : decode w = .jmp (fieldBase w) := by rw [decode, h]

/-- The mode flag chooses between the two forms of JUMP-TO-SUBROUTINE (R70). -/
theorem decode_of_jumpToSubroutine {w : Word} (h : opcodeOf w = .jumpToSubroutine) :
    decode w = if fieldJmode w then .jsr (fieldOffset11 w) else .jsrr (fieldBase w) := by rw [decode, h]

theorem decode_of_jsr_row {w : Word} (h : w &&& 0xF800 = 0x4800) : decode w = .jsr (fieldOffset11 w) := by
  have mode : fieldJmode w = true := by simpa [fieldJmode] using congrArg (·[11]) h
  rw [decode_of_jumpToSubroutine (opcodeOf_of_matches (.jsr 0) h), if_pos mode]

theorem decode_of_jsrr_row {w : Word} (h : w &&& 0xF800 = 0x4000) : decode w = .jsrr (fieldBase w) := by
  have mode : ¬ fieldJmode w = true := by simpa [fieldJmode] using congrArg (·[11]) h
  rw [decode_of_jumpToSubroutine (opcodeOf_of_matches (.jsrr 0) h), if_neg mode]

/-- One bit of a word as a number. -/
theorem toNat_getElem (w : Word) (i : Nat) (hi : i < 16) : w[i].toNat = w.toNat / 2 ^ i % 2 := by
  rw [BitVec.getElem_eq_testBit_toNat, Nat.toNat_testBit]

end Sys2Proof

namespace Sys2Proof.Machine

/-! ### BR (R91) -/

/-- Settles O13: the enable bits and the offset stand where the decoder reads them; the current flag's bit chooses
between a pc write and nothing (`exec_br_taken`, `exec_br_not_taken`). -/
theorem branchFollowsItsMask : Obligations.BranchFollowsItsMask := by
  refine ⟨fun w h => ?_, fun n z p offset9 s => ?_⟩
  · have branch : opcodeOf w = .branch := opcodeOf_of_matches (.br false false false 0) h
    exact ⟨_, _, _, _, decode_of_branch branch, toNat_getElem w 11 (by decide), toNat_getElem w 10 (by decide),
      toNat_getElem w 9 (by decide), fieldOffset9_toNat w⟩
  · rw [← condTrue_iff]
    by_cases taken : condTrue n z p s.flag = true
    · exact ⟨_, exec_br_taken taken, fun _ => tr_pcRel (by decide) s.pc offset9, fun notTaken => absurd taken notTaken,
        rfl, rfl, fun _ => rfl, rfl, rfl⟩
    · exact ⟨s, exec_br_not_taken taken, fun h => absurd h taken, fun _ => rfl, rfl, rfl, fun _ => rfl, rfl, rfl⟩

/-! ### JSR and JSRR (R92, R93) -/

theorem exec_jsr (offset11 : BitVec 11) (s : State) :
    exec (.jsr offset11) s = .next ((s.setX Config.linkReg s.pc).setPc (pcRel s.pc offset11)) := rfl

theorem exec_jsrr (base : BitVec 3) (s : State) :
    exec (.jsrr base) s = .next ((s.setX Config.linkReg s.pc).setPc (zext base)) := rfl

theorem memKept_of_mem_eq {s t : State} (h : t.mem = s.mem) : MemKept s t := fun _ => by rw [h]

/-- Settles O14: the link and the frame by `State.link_spec`, the target by its PC-relative address form. -/
theorem jumpToSubroutineLinksAndJumps : Obligations.JumpToSubroutineLinksAndJumps := by
  refine ⟨fun w h => ⟨_, decode_of_jsr_row h, fieldOffset11_toNat w⟩, fun offset11 s => ?_⟩
  obtain ⟨linked, -, regs, flag, mem, ports⟩ := State.link_spec s (pcRel s.pc offset11)
  exact ⟨_, exec_jsr offset11 s, linked, fun hpc => (congrArg BitVec.toNat linked).trans_lt hpc,
    tr_pcRel (by decide) s.pc offset11, regs, flag, memKept_of_mem_eq mem, ports⟩

/-- Settles O15: the link and the frame by `State.link_spec`; the target is below 128, and so the field itself. -/
theorem jumpToSubroutineBaseFieldLinksAndJumps : Obligations.JumpToSubroutineBaseFieldLinksAndJumps := by
  refine ⟨fun w h => ⟨_, decode_of_jsrr_row h, fieldBase_toNat w⟩, fun base s => ?_⟩
  obtain ⟨linked, -, regs, flag, mem, ports⟩ := State.link_spec s (zext base)
  exact ⟨_, exec_jsrr base s, linked, tr_zext_base base, regs, flag, memKept_of_mem_eq mem, ports⟩

/-! ### JMP (R94) -/

theorem exec_jmp (base : BitVec 3) (s : State) : exec (.jmp base) s = .next (s.setPc (zext base)) := rfl

/-- Settles O16: one pc write, whose target is below 128, and so the field itself. -/
theorem jumpGoesToBaseField : Obligations.JumpGoesToBaseField := by
  refine ⟨fun w h => ?_, fun base s => ?_⟩
  · have jump : opcodeOf w = .jump := opcodeOf_of_matches (.jmp 0) h
    exact ⟨_, decode_of_jump jump, fieldBase_toNat w⟩
  · exact ⟨_, exec_jmp base s, tr_zext_base base, rfl, rfl, fun _ => rfl, rfl, rfl⟩

end Sys2Proof.Machine

/-! ## Operate instructions: ADD, AND and NOT (42_operate.md) -/

namespace Sys2Proof

/-! ### The words of the five formats (R56 to R58, R70, R73) -/

/-- The `imm` bit chooses between the two forms of ADD (R70). -/
theorem decode_of_add {w : Word} (h : opcodeOf w = .add) :
    decode w = if fieldImm w then .addImm (fieldDr w) (fieldSr1 w) (fieldImm5 w)
      else .addReg (fieldDr w) (fieldSr1 w) (fieldSr2 w) := by rw [decode, h]

/-- The `imm` bit chooses between the two forms of AND (R70). -/
theorem decode_of_and {w : Word} (h : opcodeOf w = .and) :
    decode w = if fieldImm w then .andImm (fieldDr w) (fieldSr1 w) (fieldImm5 w)
      else .andReg (fieldDr w) (fieldSr1 w) (fieldSr2 w) := by rw [decode, h]

theorem decode_of_not {w : Word} (h : opcodeOf w = .not) : decode w = .not (fieldDr w) (fieldSr1 w) := by
  rw [decode, h]

/-- The rows of ADD and AND test the `imm` bit. -/
theorem fieldImm_of_matches {w pattern : Word} (h : w &&& 0xF020 = pattern) : fieldImm w = pattern[5] := by
  simp [fieldImm, ← h]

theorem decode_of_addReg_row {w : Word} (h : w &&& 0xF020 = 0x1000) :
    decode w = .addReg (fieldDr w) (fieldSr1 w) (fieldSr2 w) := by
  have imm : fieldImm w = false := fieldImm_of_matches h
  rw [decode_of_add (opcodeOf_of_matches (.addReg 0 0 0) h), if_neg (Bool.eq_false_iff.mp imm)]

theorem decode_of_addImm_row {w : Word} (h : w &&& 0xF020 = 0x1020) :
    decode w = .addImm (fieldDr w) (fieldSr1 w) (fieldImm5 w) := by
  have imm : fieldImm w = true := fieldImm_of_matches h
  rw [decode_of_add (opcodeOf_of_matches (.addImm 0 0 0) h), if_pos imm]

theorem decode_of_andReg_row {w : Word} (h : w &&& 0xF020 = 0x5000) :
    decode w = .andReg (fieldDr w) (fieldSr1 w) (fieldSr2 w) := by
  have imm : fieldImm w = false := fieldImm_of_matches h
  rw [decode_of_and (opcodeOf_of_matches (.andReg 0 0 0) h), if_neg (Bool.eq_false_iff.mp imm)]

theorem decode_of_andImm_row {w : Word} (h : w &&& 0xF020 = 0x5020) :
    decode w = .andImm (fieldDr w) (fieldSr1 w) (fieldImm5 w) := by
  have imm : fieldImm w = true := fieldImm_of_matches h
  rw [decode_of_and (opcodeOf_of_matches (.andImm 0 0 0) h), if_pos imm]

end Sys2Proof

namespace Sys2Proof.Machine

/-! ### What the five instructions do: a destination write of the ALU's word (R83, R97 to R101) -/

theorem exec_addReg (dr sr1 sr2 : RegIx) (s : State) :
    exec (.addReg dr sr1 sr2) s = .next (s.writeDest dr (s.x[sr1] + s.x[sr2])) := rfl

theorem exec_addImm (dr sr1 : RegIx) (imm5 : BitVec 5) (s : State) :
    exec (.addImm dr sr1 imm5) s = .next (s.writeDest dr (s.x[sr1] + zext imm5)) := rfl

theorem exec_andReg (dr sr1 sr2 : RegIx) (s : State) :
    exec (.andReg dr sr1 sr2) s = .next (s.writeDest dr (s.x[sr1] &&& s.x[sr2])) := rfl

theorem exec_andImm (dr sr1 : RegIx) (imm5 : BitVec 5) (s : State) :
    exec (.andImm dr sr1 imm5) s = .next (s.writeDest dr (s.x[sr1] &&& zext imm5)) := rfl

theorem exec_not (dr sr1 : RegIx) (s : State) :
    exec (.not dr sr1) s = .next (s.writeDest dr (~~~s.x[sr1])) := rfl

/-- Whatever word a destination write is given, the flag describes the register it wrote, and all else stays. -/
theorem State.writeDest_flag_and_frame (s : State) (dr : RegIx) (v : Word) :
    FlagDescribes (s.writeDest dr v).flag (s.writeDest dr v).x[dr] ∧ RegsKeptBut dr s (s.writeDest dr v) ∧
      (s.writeDest dr v).pc = s.pc ∧ MemKept s (s.writeDest dr v) ∧ PortsKept s (s.writeDest dr v) := by
  obtain ⟨written, flag, regs, pc, mem, ports⟩ := State.writeDest_spec s dr v
  exact ⟨written.symm ▸ flag, regs, pc, memKept_of_mem_eq mem, ports⟩

/-! ### ADD (R97, R98) -/

/-- Settles O1: ADD writes the sum of the sources, which `BitVec` takes modulo 65536. -/
theorem addRegisterFormAddsModulo65536 : Obligations.AddRegisterFormAddsModulo65536 := by
  refine ⟨fun w h => ⟨_, _, _, decode_of_addReg_row h, fieldDr_val w, fieldSr1_val w, fieldSr2_val w⟩,
    fun dr sr1 sr2 s => ⟨_, exec_addReg dr sr1 sr2 s, ?_, State.writeDest_flag_and_frame s dr _⟩⟩
  rw [State.writeDest_getX_same, BitVec.toNat_add]

/-- Settles O2: as the register form, the literal's number kept by its zero extension (`zext_toNat`). -/
theorem addImmediateFormAddsUnsignedLiteral : Obligations.AddImmediateFormAddsUnsignedLiteral := by
  refine ⟨fun w h => ⟨_, _, _, decode_of_addImm_row h, fieldDr_val w, fieldSr1_val w, fieldImm5_toNat w⟩,
    fun dr sr1 imm5 s => ⟨_, exec_addImm dr sr1 imm5 s, ?_, State.writeDest_flag_and_frame s dr _⟩⟩
  rw [State.writeDest_getX_same, BitVec.toNat_add, zext_toNat (by decide)]

/-! ### AND (R99, R100) -/

/-- Settles O3: AND writes the bitwise conjunction of the sources. -/
theorem andRegisterFormConjoinsEveryBit : Obligations.AndRegisterFormConjoinsEveryBit := by
  refine ⟨fun w h => ⟨_, _, _, decode_of_andReg_row h, fieldDr_val w, fieldSr1_val w, fieldSr2_val w⟩,
    fun dr sr1 sr2 s => ⟨_, exec_andReg dr sr1 sr2 s, fun k => ?_, State.writeDest_flag_and_frame s dr _⟩⟩
  rw [State.writeDest_getX_same, BitVec.getLsbD_and]

/-- Zero extension keeps every bit, those above the field being 0 on both sides. -/
theorem zext_getLsbD {n : Nat} (h : n ≤ 16) (v : BitVec n) (k : Nat) : (zext v).getLsbD k = v.getLsbD k := by
  rw [BitVec.getLsbD, BitVec.getLsbD, zext_toNat h]

/-- A conjunction with a literal of five bits is at most 31. -/
theorem and_zext_imm5_le (a : Word) (imm5 : BitVec 5) : (a &&& zext imm5).toNat ≤ 31 := by
  calc (a &&& zext imm5).toNat
      _ = a.toNat &&& imm5.toNat := by rw [BitVec.toNat_and, zext_toNat (by decide)]
      _ ≤ imm5.toNat := Nat.and_le_right
      _ ≤ 31 := Nat.le_of_lt_succ imm5.isLt

theorem signOf_ne_N {v : Word} (h : v.toNat < 0x8000) : signOf v ≠ .N := by
  rw [signOf_eq_ite_toNat, if_neg (by omega)]
  split <;> decide

/-- Settles O4: the zero-extended literal bounds the result by 31 (`and_zext_imm5_le`), below every word of sign N. -/
theorem andImmediateFormKeepsAtMostFiveBits : Obligations.AndImmediateFormKeepsAtMostFiveBits := by
  refine ⟨fun w h => ⟨_, _, _, decode_of_andImm_row h, fieldDr_val w, fieldSr1_val w, fieldImm5_toNat w⟩,
    fun dr sr1 imm5 s => ?_⟩
  have small := and_zext_imm5_le s.x[sr1] imm5
  obtain ⟨flag, frame⟩ := State.writeDest_flag_and_frame s dr (s.x[sr1] &&& zext imm5)
  refine ⟨_, exec_andImm dr sr1 imm5 s, fun k => ?_, ?_, flag, ?_, frame⟩
  · rw [State.writeDest_getX_same, BitVec.getLsbD_and, zext_getLsbD (by decide)]
  · rwa [State.writeDest_getX_same]
  · rw [State.writeDest_flag]
    exact signOf_ne_N (by omega)

/-! ### NOT (R101) -/

/-- Settles O5: NOT writes the source's complement, which is 65535 minus it. -/
theorem notComplementsTheSource : Obligations.NotComplementsTheSource := by
  refine ⟨fun w h => ?_, fun dr sr1 s => ⟨_, exec_not dr sr1 s, ?_, State.writeDest_flag_and_frame s dr _⟩⟩
  · have code : opcodeOf w = .not := opcodeOf_of_matches (.not 0 0) h
    exact ⟨_, _, decode_of_not code, fieldDr_val w, fieldSr1_val w⟩
  · rw [State.writeDest_getX_same, BitVec.toNat_not]

/-- A second write of one destination leaves nothing of the first. -/
theorem State.writeDest_writeDest (s : State) (dr : RegIx) (v w : Word) :
    (s.writeDest dr v).writeDest dr w = s.writeDest dr w := by
  apply State.ext_fields <;> simp

/-- Writing a register with the word it holds leaves all registers as they were. -/
theorem State.writeDest_self_x (s : State) (r : RegIx) : (s.writeDest r s.x[r]).x = s.x := by
  simp

/-- NOT of a register onto itself, twice, amounts to writing the register with its own word. -/
theorem exec_not_not (r : RegIx) (s : State) :
    exec (.not r r) (s.writeDest r (~~~s.x[r])) = .next (s.writeDest r s.x[r]) := by
  rw [exec_not, State.writeDest_getX_same, BitVec.not_not, State.writeDest_writeDest]

/-- Settles O36: the two complements cancel (`exec_not_not`). -/
theorem notTwiceRestoresTheRegister : Obligations.NotTwiceRestoresTheRegister := by
  intro r s
  obtain ⟨-, flag, -, pc, mem, -⟩ := State.writeDest_spec s r s.x[r]
  exact ⟨_, _, exec_not r r s, exec_not_not r s, State.writeDest_self_x s r, flag, pc, memKept_of_mem_eq mem⟩

/-! ### Subtraction (R102) -/

/-- NOT b, ADD b #1 negates register b: two's complement. -/
theorem exec_addImm_one_not (b : RegIx) (s : State) :
    exec (.addImm b b 1) (s.writeDest b (~~~s.x[b])) = .next (s.writeDest b (-s.x[b])) := by
  have one : zext (1 : BitVec 5) = 1#16 := rfl
  rw [exec_addImm, State.writeDest_getX_same, State.writeDest_writeDest, one, BitVec.neg_eq_not_add]

/-- ADD of another register and a negated one writes the difference. -/
theorem exec_addReg_negated {a b : RegIx} (hab : a ≠ b) (d : RegIx) (s : State) :
    exec (.addReg d a b) (s.writeDest b (-s.x[b])) =
      .next ((s.writeDest b (-s.x[b])).writeDest d (s.x[a] - s.x[b])) := by
  obtain ⟨negated, -, kept, -⟩ := State.writeDest_spec s b (-s.x[b])
  rw [exec_addReg, kept a hab, negated, BitVec.sub_eq_add_neg]

/-- Settles O37: NOT and ADD #1 negate `b` (`exec_addImm_one_not`) and leave `a`, so that their sum is the difference
(`exec_addReg_negated`). -/
theorem notAddAddSubtracts : Obligations.NotAddAddSubtracts := by
  intro d a b s hab
  obtain ⟨flag, -, pc, -⟩ := State.writeDest_flag_and_frame (s.writeDest b (-s.x[b])) d (s.x[a] - s.x[b])
  refine ⟨_, _, _, exec_not b b s, exec_addImm_one_not b s, exec_addReg_negated hab d s, ?_, flag, pc⟩
  rw [State.writeDest_getX_same, BitVec.toNat_sub]
  have := s.x[b].isLt
  omega

end Sys2Proof.Machine

/-! ## Loads, stores and LEA (43_load_store.md) -/

namespace Sys2Proof

/-! ### The words of the seven formats (R59, R62, R73) -/

theorem decode_of_ld_row {w : Word} (h : w &&& 0xF000 = 0x2000) : decode w = .ld (fieldDr w) (fieldOffset9 w) := by
  have code : opcodeOf w = .load := opcodeOf_of_matches (.ld 0 0) h
  rw [decode, code]

theorem decode_of_st_row {w : Word} (h : w &&& 0xF000 = 0x3000) : decode w = .st (fieldDr w) (fieldOffset9 w) := by
  have code : opcodeOf w = .store := opcodeOf_of_matches (.st 0 0) h
  rw [decode, code]

theorem decode_of_ldr_row {w : Word} (h : w &&& 0xF000 = 0x6000) :
    decode w = .ldr (fieldDr w) (fieldBase w) (fieldOffset6 w) := by
  have code : opcodeOf w = .loadRegister := opcodeOf_of_matches (.ldr 0 0 0) h
  rw [decode, code]

theorem decode_of_str_row {w : Word} (h : w &&& 0xF000 = 0x7000) :
    decode w = .str (fieldDr w) (fieldBase w) (fieldOffset6 w) := by
  have code : opcodeOf w = .storeRegister := opcodeOf_of_matches (.str 0 0 0) h
  rw [decode, code]

theorem decode_of_ldi_row {w : Word} (h : w &&& 0xF000 = 0xA000) : decode w = .ldi (fieldDr w) (fieldOffset9 w) := by
  have code : opcodeOf w = .loadIndirect := opcodeOf_of_matches (.ldi 0 0) h
  rw [decode, code]

theorem decode_of_sti_row {w : Word} (h : w &&& 0xF000 = 0xB000) : decode w = .sti (fieldDr w) (fieldOffset9 w) := by
  have code : opcodeOf w = .storeIndirect := opcodeOf_of_matches (.sti 0 0) h
  rw [decode, code]

theorem decode_of_lea_row {w : Word} (h : w &&& 0xF000 = 0xE000) : decode w = .lea (fieldDr w) (fieldOffset9 w) := by
  have code : opcodeOf w = .loadEffectiveAddress := opcodeOf_of_matches (.lea 0 0) h
  rw [decode, code]

end Sys2Proof

namespace Sys2Proof.Machine

/-! ### The word at each address form (R35, R36) -/

theorem State.memRead_pcRel (s : State) (offset9 : BitVec 9) :
    s.memRead (pcRel s.pc offset9) = Memory.get s.mem ((s.pc.toNat + offset9.toNat) % 128) := by
  rw [State.memRead, tr_pcRel (by decide)]

theorem State.memRead_baseRel (s : State) (base : BitVec 3) (offset6 : BitVec 6) :
    s.memRead (baseRel base offset6) = Memory.get s.mem (base.toNat + offset6.toNat) := by
  rw [State.memRead, tr_baseRel]

/-- The largest base field and the largest offset make 70 (R105, R106). -/
theorem base_add_offset6_le (base : BitVec 3) (offset6 : BitVec 6) : base.toNat + offset6.toNat ≤ 70 := by
  have := base.isLt
  have := offset6.isLt
  omega

/-- LEA's address as a number (R109). -/
theorem effective_zext_toNat (pc : Word) (offset9 : BitVec 9) :
    (effective pc (zext offset9)).toNat = (pc.toNat + offset9.toNat) % 128 := by
  rw [effective_toNat, zext_toNat (by decide)]

/-! ### What the loads and LEA do: a destination write (R103, R105, R107, R109) -/

theorem exec_ld (dr : RegIx) (offset9 : BitVec 9) (s : State) :
    exec (.ld dr offset9) s =
      .next (s.writeDest dr (Memory.get s.mem ((s.pc.toNat + offset9.toNat) % 128))) := by
  rw [← State.memRead_pcRel]
  rfl

theorem exec_ldr (dr : RegIx) (base : BitVec 3) (offset6 : BitVec 6) (s : State) :
    exec (.ldr dr base offset6) s = .next (s.writeDest dr (Memory.get s.mem (base.toNat + offset6.toNat))) := by
  rw [← State.memRead_baseRel]
  rfl

theorem exec_ldi (dr : RegIx) (offset9 : BitVec 9) (s : State) :
    exec (.ldi dr offset9) s = .next (s.writeDest dr
      (Memory.get s.mem ((Memory.get s.mem ((s.pc.toNat + offset9.toNat) % 128)).toNat % 128))) := by
  rw [← State.memRead_pcRel, ← State.memRead_eq]
  rfl

theorem exec_lea (dr : RegIx) (offset9 : BitVec 9) (s : State) :
    exec (.lea dr offset9) s = .next (s.writeDest dr (effective s.pc (zext offset9))) := rfl

/-! ### What the stores do: one memory write (R104 by `exec_st`, R106, R108) -/

theorem exec_str (sr : RegIx) (base : BitVec 3) (offset6 : BitVec 6) (s : State) :
    exec (.str sr base offset6) s = .next (s.memWrite (baseRel base offset6) s.x[sr]) := rfl

theorem exec_sti (sr : RegIx) (offset9 : BitVec 9) (s : State) :
    exec (.sti sr offset9) s = .next (s.memWrite (s.memRead (pcRel s.pc offset9)) s.x[sr]) := rfl

/-- All that a store does, at whatever address (R41). -/
theorem State.memWrite_spec (s : State) (a v : Word) :
    Memory.get (s.memWrite a v).mem (tr a).toNat = v ∧ MemKeptBut (tr a).toNat s (s.memWrite a v) ∧
      (s.memWrite a v).x = s.x ∧ (s.memWrite a v).flag = s.flag ∧ (s.memWrite a v).pc = s.pc ∧
      PortsKept s (s.memWrite a v) :=
  ⟨Memory.get_set_same s.mem (tr a).toNat v, fun _ other => Memory.get_set_other s.mem other v, rfl, rfl, rfl, rfl, rfl⟩

/-- LD after ST with the same offset loads the value stored: ST keeps the pc, and so both address one word (R104). -/
theorem exec_ld_after_st (dr : RegIx) (offset9 : BitVec 9) (s : State) (v : Word) :
    exec (.ld dr offset9) (s.memWrite (pcRel s.pc offset9) v) =
      .next ((s.memWrite (pcRel s.pc offset9) v).writeDest dr v) := by
  rw [exec_ld, State.memWrite_pc, get_memWrite_pcRel]

/-! ### LD and ST (R103, R104) -/

/-- Settles O6: a destination write of the word at the PC-relative index (`exec_ld`). -/
theorem loadReadsPcRelativeWord : Obligations.LoadReadsPcRelativeWord :=
  ⟨fun w h => ⟨_, _, decode_of_ld_row h, fieldDr_val w, fieldOffset9_toNat w⟩,
    fun dr offset9 s => ⟨_, exec_ld dr offset9 s, State.writeDest_getX_same s dr _,
      State.writeDest_flag_and_frame s dr _⟩⟩

/-- Settles O7: one memory write (`State.memWrite_spec`), which LD reads back (`exec_ld_after_st`). -/
theorem storeWritesPcRelativeWord : Obligations.StoreWritesPcRelativeWord := by
  refine ⟨fun w h => ⟨_, _, decode_of_st_row h, fieldDr_val w, fieldOffset9_toNat w⟩, fun sr offset9 s => ?_⟩
  obtain ⟨stored, others, regs, flag, pc, ports⟩ := State.memWrite_spec s (pcRel s.pc offset9) s.x[sr]
  exact ⟨_, exec_st sr offset9 s, tr_pcRel (by decide) s.pc offset9, stored, others, regs, flag, pc, ports,
    fun dr => ⟨_, exec_ld_after_st dr offset9 s s.x[sr], State.writeDest_getX_same _ dr _⟩⟩

/-! ### LDR and STR (R105, R106) -/

/-- Settles O8: as LD, at an index of the two fields alone, which the translator keeps as it is below 128. -/
theorem loadRegisterReadsBaseFieldWord : Obligations.LoadRegisterReadsBaseFieldWord :=
  ⟨fun w h => ⟨_, _, _, decode_of_ldr_row h, fieldDr_val w, fieldBase_toNat w, fieldOffset6_toNat w⟩,
    fun dr base offset6 s => ⟨_, exec_ldr dr base offset6 s, State.writeDest_getX_same s dr _,
      base_add_offset6_le base offset6, State.writeDest_flag_and_frame s dr _⟩⟩

/-- Settles O9: one memory write, at an index of the two fields alone. -/
theorem storeRegisterWritesBaseFieldWord : Obligations.StoreRegisterWritesBaseFieldWord :=
  ⟨fun w h => ⟨_, _, _, decode_of_str_row h, fieldDr_val w, fieldBase_toNat w, fieldOffset6_toNat w⟩,
    fun sr base offset6 s => ⟨_, exec_str sr base offset6 s, tr_baseRel base offset6,
      base_add_offset6_le base offset6, State.memWrite_spec s (baseRel base offset6) s.x[sr]⟩⟩

/-! ### LDI and STI (R107, R108) -/

/-- Settles O10: the pointer's word and the data's word are both read from the memory before the write (`exec_ldi`). -/
theorem loadIndirectReadsThroughPointer : Obligations.LoadIndirectReadsThroughPointer :=
  ⟨fun w h => ⟨_, _, decode_of_ldi_row h, fieldDr_val w, fieldOffset9_toNat w⟩,
    fun dr offset9 s => ⟨_, exec_ldi dr offset9 s, State.writeDest_getX_same s dr _,
      State.writeDest_flag_and_frame s dr _⟩⟩

/-- Settles O11: one memory write, at the pointer that stood in memory before it, so that a pointer to its own index is
no exception. -/
theorem storeIndirectWritesThroughPointer : Obligations.StoreIndirectWritesThroughPointer := by
  refine ⟨fun w h => ⟨_, _, decode_of_sti_row h, fieldDr_val w, fieldOffset9_toNat w⟩,
    fun sr offset9 s => ⟨_, exec_sti sr offset9 s, ?_, State.memWrite_spec s (s.memRead (pcRel s.pc offset9)) s.x[sr]⟩⟩
  rw [tr_toNat, State.memRead_pcRel]

/-! ### LEA (R109) -/

/-- Settles O12: the address written is below 128 (`effective_zext_toNat`), and so below every word of sign N. -/
theorem loadEffectiveAddressWritesTranslatedAddress : Obligations.LoadEffectiveAddressWritesTranslatedAddress := by
  refine ⟨fun w h => ⟨_, _, decode_of_lea_row h, fieldDr_val w, fieldOffset9_toNat w⟩, fun dr offset9 s => ?_⟩
  have address := effective_zext_toNat s.pc offset9
  obtain ⟨flag, frame⟩ := State.writeDest_flag_and_frame s dr (effective s.pc (zext offset9))
  refine ⟨_, exec_lea dr offset9 s, ?_, flag, ?_, frame⟩
  · rwa [State.writeDest_getX_same]
  · rw [State.writeDest_flag]
    exact signOf_ne_N (by omega)

end Sys2Proof.Machine

/-! ## Reserved opcodes: LOOKUP, BSET and SENDACC (44_reserved.md) -/

namespace Sys2Proof.Machine

/-! ### What the three instructions do: a pulse of the hook and nothing else (R88, R110 to R112) -/

theorem exec_lookup (payload : BitVec 12) (s : State) :
    exec (.lookup payload) s = .next (s.pulseHook 8 payload) := rfl

theorem exec_bset (payload : BitVec 12) (s : State) :
    exec (.bset payload) s = .next (s.pulseHook 13 payload) := rfl

theorem exec_sendacc (payload : BitVec 12) (s : State) :
    exec (.sendacc payload) s = .next (s.pulseHook 15 payload) := rfl

/-- All that a pulse does: the hook shows the opcode and the word of the opcode followed by the payload. -/
theorem State.pulseHook_spec (s : State) (op : BitVec 4) (payload : BitVec 12) :
    CellKept s (s.pulseHook op payload) ∧ (s.pulseHook op payload).inputs = s.inputs ∧
      (s.pulseHook op payload).out.rspDone = s.out.rspDone ∧
      (s.pulseHook op payload).out.hook = some ⟨op, op ++ payload⟩ ∧
      (op ++ payload : BitVec (4 + 12)).toNat = op.toNat * 4096 + payload.toNat :=
  ⟨⟨rfl, rfl, rfl, fun _ => rfl⟩, rfl, rfl, rfl, hookWord_toNat op payload⟩

/-- Settles O17: the four opcode bits choose the decoder's row, whose payload is the 12 low bits, and each of the three
instructions is one pulse of the hook (`State.pulseHook_spec`). -/
theorem reservedOpcodesChangeNothingAndPulse : Obligations.ReservedOpcodesChangeNothingAndPulse := by
  refine ⟨fun w => ⟨fun h => ?_, fun h => ?_, fun h => ?_⟩, fun q s => ⟨?_, ?_, ?_⟩⟩
  · exact ⟨_, decode_of_lookup (opcodeOf_of_matches (.lookup 0) h), fieldPayload_toNat w⟩
  · exact ⟨_, decode_of_broadcastSet (opcodeOf_of_matches (.bset 0) h), fieldPayload_toNat w⟩
  · exact ⟨_, decode_of_sendAccept (opcodeOf_of_matches (.sendacc 0) h), fieldPayload_toNat w⟩
  · exact ⟨_, _, exec_lookup q s, State.pulseHook_spec s 8 q⟩
  · exact ⟨_, _, exec_bset q s, State.pulseHook_spec s 13 q⟩
  · exact ⟨_, _, exec_sendacc q s, State.pulseHook_spec s 15 q⟩

end Sys2Proof.Machine

/-! ## Exceptions, and the block between transactions (60_exceptions.md) -/

namespace Sys2Proof.Machine

/-! ### The idle step (R125) -/

/-- All that idling does: the cell and the host's list stay, and the pulses of the step before are over. -/
theorem State.idle_spec (s : State) :
    CellKept s s.idle ∧ s.idle.out = ⟨false, none⟩ ∧ s.idle.inputs = s.inputs :=
  ⟨⟨s.idle_pc, s.idle_flag, s.idle_x, fun _ => by rw [s.idle_mem]⟩, s.idle_out, s.idle_inputs⟩

/-- Settles O43: with no edge to come the step is the idle one (`step_of_no_edge`), which writes the pulses alone. -/
theorem idleBlockHoldsItsState : Obligations.IdleBlockHoldsItsState := by
  intro s hin
  obtain ⟨kept, quiet, inputs⟩ := State.idle_spec s
  exact ⟨s.idle, step_of_no_edge hin, kept, quiet, inputs.trans hin⟩

end Sys2Proof.Machine

/-! ## Reset (70_reset_and_hazards.md) -/

namespace Sys2Proof.Machine

/-! ### The reset edge (R126) -/

/-- All that reset does: every field is the reset state's (`resetLeavesEverythingZero`), and the host's list stays. -/
theorem State.resetBlock_spec (s : State) :
    s.resetBlock.pc = 0 ∧ s.resetBlock.flag = .Z ∧ (∀ r : RegIx, s.resetBlock.x[r] = 0) ∧
      (∀ a : Nat, Memory.get s.resetBlock.mem a = 0) ∧ s.resetBlock.out = ⟨false, none⟩ ∧
      s.resetBlock.inputs = s.inputs := by
  obtain ⟨pc, flag, registers, memory⟩ := resetLeavesEverythingZero
  exact ⟨pc, flag, registers, memory, s.resetBlock_out, s.resetBlock_inputs⟩

/-- Settles O42: a set `rst` decides the step before the access and the request are looked at (`step_of_reset`), and what
it leaves depends on the host's list alone (`State.resetBlock_spec`). -/
theorem resetEdgeTakesTheResetState : Obligations.ResetEdgeTakesTheResetState := by
  intro s access request rest hin
  exact ⟨_, step_of_reset hin rfl, State.resetBlock_spec (s.takeEdge rest)⟩

end Sys2Proof.Machine
